-- ==== Sys2Proof/Word.lean ====
section
/-! DEFINITION. The machine's 32-bit pattern and its two readings (00_scope.md R8, R9). -/

namespace Sys2Proof

/-- One cell, register or memory: a 32-bit pattern (10_state.md R23). -/
abbrev Word := BitVec 32

/-- `u(c)`: the pattern read as an unsigned number (R9). -/
abbrev Word.unsigned (c : Word) : Nat := c.toNat

/-- `s(c)`: the pattern read as a two's-complement signed number (R9). -/
abbrev Word.signed (c : Word) : Int := c.toInt

/-- `wrap(n)`: the 32-bit pattern of the integer `n` modulo 2^32 (R9). -/
def wrap (n : Int) : Word := BitVec.ofInt 32 n

end Sys2Proof
end

