-- ==== Sys2Proof/Syntax/Operand.lean ====
section
/-! DEFINITION. The operand of an instruction: a (mode, address-or-immediate) pair (30_encoding.md R71, R75). -/

namespace Sys2Proof

/-- The direction bit of mode 101 (30_encoding.md R77). -/
inductive Direction where
  | increment   -- operand[7] = 0: use the value, then increment
  | decrement   -- operand[7] = 1: decrement, then use the value
  deriving DecidableEq, Repr

/-- One operand field: the eight modes of 40_addressing_resolver.md R110, each with the number its field holds
(30_encoding.md R75). The number is a `Nat`, as the document's assembler has it before packing; that it fits the field
is `Operand.fits`. -/
inductive Operand where
  | reg (a : Nat)                    -- 000 register direct: a register address
  | regInd (a : Nat)                 -- 001 register indirect: a register address
  | imm (v : Nat)                    -- 010 immediate: the value
  | ind (a : Nat)                    -- 011 indirect: a memory address
  | idx (a : Nat)                    -- 100 indexed: an index-register address
  | auto (d : Direction) (a : Nat)   -- 101 auto-increment/decrement: a 7-bit register address
  | direct (a : Nat)                 -- 110 direct: a memory address
  | stack (o : Nat)                  -- 111 stack: the field is not used
  deriving DecidableEq, Repr

end Sys2Proof
end

