-- ==== Sys2Proof/Syntax.lean ====
section
/-! DEFINITION. The instruction set: one constructor per row of spec/opcode_table.json (30_encoding.md R80). -/

namespace Sys2Proof

/-- The 21 instructions of R80. Each carries both operand fields of its word, the unused ones too, because decoding keeps
them (30_encoding.md R84); which fields an instruction uses is a property of the opcode (R81). -/
inductive Instr where
  | prnt (f1 f2 : Operand)   -- class 00
  | eop  (f1 f2 : Operand)
  | mov  (f1 f2 : Operand)   -- class 01
  | push (f1 f2 : Operand)
  | pop  (f1 f2 : Operand)
  | top  (f1 f2 : Operand)
  | call (f1 f2 : Operand)
  | ret  (f1 f2 : Operand)
  | scan (f1 f2 : Operand)
  | jeq  (f1 f2 : Operand)   -- class 10
  | jne  (f1 f2 : Operand)
  | jlt  (f1 f2 : Operand)
  | jle  (f1 f2 : Operand)
  | jgt  (f1 f2 : Operand)
  | jge  (f1 f2 : Operand)
  | jmp  (f1 f2 : Operand)
  | mod  (f1 f2 : Operand)   -- class 11
  | add  (f1 f2 : Operand)
  | sub  (f1 f2 : Operand)
  | mul  (f1 f2 : Operand)
  | div  (f1 f2 : Operand)
  deriving DecidableEq, Repr

/-- Field 1 of the instruction's word, the pair (`mode1`, `operand1`) (R71). -/
def Instr.f1 : Instr → Operand
  | .prnt a _ | .eop a _ | .mov a _ | .push a _ | .pop a _ | .top a _ | .call a _ | .ret a _ | .scan a _
  | .jeq a _ | .jne a _ | .jlt a _ | .jle a _ | .jgt a _ | .jge a _ | .jmp a _
  | .mod a _ | .add a _ | .sub a _ | .mul a _ | .div a _ => a

/-- Field 2 of the instruction's word, the pair (`mode2`, `operand2`) (R71). -/
def Instr.f2 : Instr → Operand
  | .prnt _ b | .eop _ b | .mov _ b | .push _ b | .pop _ b | .top _ b | .call _ b | .ret _ b | .scan _ b
  | .jeq _ b | .jne _ b | .jlt _ b | .jle _ b | .jgt _ b | .jge _ b | .jmp _ b
  | .mod _ b | .add _ b | .sub _ b | .mul _ b | .div _ b => b

end Sys2Proof
end

