-- ==== Sys2Proof/WellFormed.lean ====
section
/-! DEFINITION. When an instruction has a word (30_encoding.md R75, R76, R77), and when that word is the one the
assembler writes (R81, R82). -/

namespace Sys2Proof

/-- The number fits its 8-bit field, 0 to 255 (R75, R76); in mode 101 the register address has 7 bits (R77). -/
def Operand.fits : Operand → Bool
  | .reg a | .regInd a | .ind a | .idx a | .direct a => decide (a < 256)
  | .imm v => decide (v < 256)
  | .auto _ a => decide (a < 128)
  | .stack o => decide (o < 256)

/-- Both operands fit their fields: the instruction is encodable (R84). -/
def Instr.wellFormed (i : Instr) : Bool := i.f1.fits && i.f2.fits

/-- The well-formed instructions, as a proposition. -/
abbrev Instr.WellFormed (i : Instr) : Prop := i.wellFormed = true

/-- What the assembler writes in an unused field (R81). -/
def Operand.absent : Operand := .reg 0

/-- What the assembler writes in field 2 of PUSH, POP and TOP (R82). -/
def Operand.stackMark : Operand := .stack 0

/-- The unused fields are as the assembler writes them (R81, R82). The hardware runs the others too (R88). -/
def Instr.canonical : Instr → Bool
  | .eop a b | .ret a b => decide (a = .absent) && decide (b = .absent)
  | .prnt _ b | .call _ b | .scan _ b | .jmp _ b => decide (b = .absent)
  | .push _ b | .pop _ b | .top _ b => decide (b = .stackMark)
  | .mov _ _ | .jeq _ _ | .jne _ _ | .jlt _ _ | .jle _ _ | .jgt _ _ | .jge _ _
  | .mod _ _ | .add _ _ | .sub _ _ | .mul _ _ | .div _ _ => true

end Sys2Proof
end

