-- ==== Sys2Proof/Decode.lean ====
section
/-! DEFINITION. The decoder and, after it, the encoder, both written from the one opcode map of 30_encoding.md R80
(41_execution_engine.md R150). -/

namespace Sys2Proof

/-- The four classes (R72). -/
inductive OpClass where
  | pureControl | writeOnly | controlTransfer | arithmetic
  deriving DecidableEq, Repr

/-- The 21 mnemonics (R80): an instruction without its operands. -/
inductive Opcode where
  | PRNT | EOP
  | MOV | PUSH | POP | TOP | CALL | RET | SCAN
  | JEQ | JNE | JLT | JLE | JGT | JGE | JMP
  | MOD | ADD | SUB | MUL | DIV
  deriving DecidableEq, Repr

/-- Why a word is no instruction (R85, R86). -/
inductive DecodeReject where
  /-- The (class, category) pair is no row of R80. -/
  | unknownOpcode (cls : BitVec 2) (category : BitVec 5)
  deriving DecidableEq, Repr

/-! ### The opcode map -/

/-- The 2-bit class codes (R72, decision D7). -/
def OpClass.code : OpClass → BitVec 2
  | .pureControl => 0b00#2
  | .writeOnly => 0b01#2
  | .controlTransfer => 0b10#2
  | .arithmetic => 0b11#2

/-- The class of each mnemonic (R80); CALL and RET are of class 01 (R83). -/
def Opcode.cls : Opcode → OpClass
  | .PRNT | .EOP => .pureControl
  | .MOV | .PUSH | .POP | .TOP | .CALL | .RET | .SCAN => .writeOnly
  | .JEQ | .JNE | .JLT | .JLE | .JGT | .JGE | .JMP => .controlTransfer
  | .MOD | .ADD | .SUB | .MUL | .DIV => .arithmetic

/-- The index of each mnemonic within its class (R73, R80). -/
def Opcode.category : Opcode → BitVec 5
  | .PRNT => 0 | .EOP => 1
  | .MOV => 0 | .PUSH => 1 | .POP => 2 | .TOP => 3 | .CALL => 4 | .RET => 5 | .SCAN => 6
  | .JEQ => 0 | .JNE => 1 | .JLT => 2 | .JLE => 3 | .JGT => 4 | .JGE => 5 | .JMP => 6
  | .MOD => 0 | .ADD => 1 | .SUB => 2 | .MUL => 3 | .DIV => 4

/-- Every mnemonic, in the order of R80. -/
def Opcode.all : List Opcode :=
  [.PRNT, .EOP, .MOV, .PUSH, .POP, .TOP, .CALL, .RET, .SCAN,
   .JEQ, .JNE, .JLT, .JLE, .JGT, .JGE, .JMP, .MOD, .ADD, .SUB, .MUL, .DIV]

/-- `lookup (class, category)` in the opcode map (R79). -/
def Opcode.lookup (cls : BitVec 2) (category : BitVec 5) : Option Opcode :=
  Opcode.all.find? fun o => o.cls.code == cls && o.category == category

/-- The instruction of a mnemonic and its two operand fields. -/
def Opcode.instr : Opcode → Operand → Operand → Instr
  | .PRNT => .prnt | .EOP => .eop
  | .MOV => .mov | .PUSH => .push | .POP => .pop | .TOP => .top | .CALL => .call | .RET => .ret | .SCAN => .scan
  | .JEQ => .jeq | .JNE => .jne | .JLT => .jlt | .JLE => .jle | .JGT => .jgt | .JGE => .jge | .JMP => .jmp
  | .MOD => .mod | .ADD => .add | .SUB => .sub | .MUL => .mul | .DIV => .div

/-- The mnemonic of an instruction. -/
def Instr.opcode : Instr → Opcode
  | .prnt _ _ => .PRNT | .eop _ _ => .EOP
  | .mov _ _ => .MOV | .push _ _ => .PUSH | .pop _ _ => .POP | .top _ _ => .TOP
  | .call _ _ => .CALL | .ret _ _ => .RET | .scan _ _ => .SCAN
  | .jeq _ _ => .JEQ | .jne _ _ => .JNE | .jlt _ _ => .JLT | .jle _ _ => .JLE
  | .jgt _ _ => .JGT | .jge _ _ => .JGE | .jmp _ _ => .JMP
  | .mod _ _ => .MOD | .add _ _ => .ADD | .sub _ _ => .SUB | .mul _ _ => .MUL | .div _ _ => .DIV

/-! ### Decoding -/

/-- `class = W[31:30]` (R79). -/
def classBits (w : Word) : BitVec 2 := w.extractLsb' 30 2

/-- `category = W[29:25]` (R79). -/
def categoryBits (w : Word) : BitVec 5 := w.extractLsb' 25 5

/-- `mode1 = W[24:22]` (R79). -/
def mode1Bits (w : Word) : BitVec 3 := w.extractLsb' 22 3

/-- `operand1 = W[21:14]` (R79). -/
def operand1Bits (w : Word) : BitVec 8 := w.extractLsb' 14 8

/-- `mode2 = W[13:11]` (R79). -/
def mode2Bits (w : Word) : BitVec 3 := w.extractLsb' 11 3

/-- `operand2 = W[10:3]` (R79). -/
def operand2Bits (w : Word) : BitVec 8 := w.extractLsb' 3 8

/-- The direction bit of mode 101, bit 7 of the operand field (R77). -/
def Direction.ofBit : Bool → Direction
  | false => .increment
  | true => .decrement

/-- One operand field: the mode code of 40_addressing_resolver.md R110 with the number beside it (R75, R77). -/
def Operand.ofBits (m : BitVec 3) (o : BitVec 8) : Operand :=
  match m.toNat with
  | 0 => .reg o.toNat
  | 1 => .regInd o.toNat
  | 2 => .imm o.toNat
  | 3 => .ind o.toNat
  | 4 => .idx o.toNat
  | 5 => .auto (Direction.ofBit (o.getLsbD 7)) (o.extractLsb' 0 7).toNat
  | 6 => .direct o.toNat
  | _ => .stack o.toNat

/-- DECODE (R79): total; the only rejection is an unknown opcode (R85). Bits 2:0 are not looked at (R78). -/
def decode (w : Word) : Except DecodeReject Instr :=
  match Opcode.lookup (classBits w) (categoryBits w) with
  | some op =>
    .ok (op.instr (Operand.ofBits (mode1Bits w) (operand1Bits w)) (Operand.ofBits (mode2Bits w) (operand2Bits w)))
  | none => .error (.unknownOpcode (classBits w) (categoryBits w))

/-- The instruction read from the table's numbering of a word: one 32-bit word, bit 0 the least significant; bits from
`nbits` up are 0. -/
def decodeTableWord (nbits w : Nat) : Option Instr :=
  (decode (BitVec.ofNat 32 (w % 2 ^ nbits))).toOption

/-! ### Encoding -/

/-- The direction bit (R77). -/
def Direction.bit : Direction → BitVec 1
  | .increment => 0#1
  | .decrement => 1#1

/-- The mode code of an operand (40_addressing_resolver.md R110). -/
def Operand.modeBits : Operand → BitVec 3
  | .reg _ => 0b000#3
  | .regInd _ => 0b001#3
  | .imm _ => 0b010#3
  | .ind _ => 0b011#3
  | .idx _ => 0b100#3
  | .auto _ _ => 0b101#3
  | .direct _ => 0b110#3
  | .stack _ => 0b111#3

/-- The operand field of an operand (R75, R77); a number that does not fit is cut, and has no word (`encode?`). -/
def Operand.fieldBits : Operand → BitVec 8
  | .reg a | .regInd a | .imm a | .ind a | .idx a | .direct a | .stack a => BitVec.ofNat 8 a
  | .auto d a => d.bit ++ BitVec.ofNat 7 a

/-- `W = class ++ category ++ mode1 ++ operand1 ++ mode2 ++ operand2 ++ 000` (R84). -/
def encode (i : Instr) : Word :=
  i.opcode.cls.code ++ i.opcode.category ++ i.f1.modeBits ++ i.f1.fieldBits ++ i.f2.modeBits ++ i.f2.fieldBits ++ 0#3

/-- The assembler's packing: an operand outside its field has no word (R76, R104). -/
def encode? (i : Instr) : Option Word := if i.wellFormed then some (encode i) else none

/-! ### The one pseudo-instruction -/

/-- The two words' instructions for the source line `Jcc op1 op2` (R102): `SUB op1 op2`, then `Jcc op1` with field 2
absent. `jcc` is the conditional jump's constructor. -/
def expandJcc (jcc : Operand → Operand → Instr) (op1 op2 : Operand) : List Instr :=
  [.sub op1 op2, jcc op1 .absent]

end Sys2Proof
end

