-- ==== Sys2Proof/Config.lean ====
section
/-! DEFINITION. The implementation parameters of 00_scope.md R6. XLEN = 32 is the type `Word`, GPR_BASE = 16 is `Reg.GPR`. -/

namespace Sys2Proof

/-- The named parameters of R6; fixed during a run (10_state.md R20). -/
structure Config where
  /-- NREG, the number of register addresses. -/
  nreg : Nat
  /-- MEM_SIZE, the number of memory addresses. -/
  memSize : Nat
  /-- STACK_BASE, the reset value of SPR. -/
  stackBase : Nat
  /-- STACK_LIMIT, the highest memory address a push may write; -1 for a stack of no cell (R6 admits it). -/
  stackLimit : Int
  /-- DISP, the fixed displacement of the indexed mode. -/
  disp : Int
  deriving DecidableEq, Repr

/-- The defaults of R6. -/
def Config.standard : Config :=
  { nreg := 32, memSize := 256, stackBase := 192, stackLimit := 255, disp := 0 }

/-- The constraints of R6's last column. -/
def Config.wf (c : Config) : Bool :=
  decide (32 ≤ c.nreg) && decide (c.nreg ≤ 128) &&
  decide (1 ≤ c.memSize) && decide (c.memSize ≤ 2 ^ 31) &&
  decide ((c.stackBase : Int) ≤ c.stackLimit + 1) && decide (c.stackLimit ≤ (c.memSize : Int) - 1)

end Sys2Proof
end

