-- ==== Sys2Proof/Machine/Storage.lean ====
section
/-! DEFINITION. The storage interface of 00_scope.md R13, of which the register array and the memory array are the two
instances, and the register map of 10_state.md R21. -/

namespace Sys2Proof.Machine

/-- One array of cells, by cell address: the cells that do not hold 0, in one canonical form (`Storage.canonical`). Memory
is addressed by whole 32-bit cells and has no bytes (20_memory.md R52, R53). -/
abbrev Storage := List (Nat × Word)

/-- `load(address) -> value`: 0 where nothing was written (R13; 10_state.md R24). -/
def Storage.load : Storage → Nat → Word
  | [], _ => 0#32
  | (k, v) :: rest, a => if k = a then v else Storage.load rest a

/-- The array without the entry of `a`. -/
def Storage.erase (m : Storage) (a : Nat) : Storage := m.filter fun c => c.1 != a

/-- A new entry, before the first entry of a larger address. -/
def Storage.insert : Storage → Nat → Word → Storage
  | [], a, v => [(a, v)]
  | (k, w) :: rest, a, v => if a < k then (a, v) :: (k, w) :: rest else (k, w) :: Storage.insert rest a v

/-- `store(address, value)` (R13): a 0 takes the entry away, so that equal contents are equal lists. -/
def Storage.store (m : Storage) (a : Nat) (v : Word) : Storage :=
  if v = 0#32 then m.erase a else (m.erase a).insert a v

/-- Addresses strictly rise. -/
def Storage.rising : Storage → Bool
  | [] => true
  | (a, _) :: rest => rest.all (fun c => decide (a < c.1)) && Storage.rising rest

/-- The canonical form of an array of `size` cells: addresses strictly rising and below `size`, no entry equal to what an
unlisted address reads as. -/
def Storage.canonical (size : Nat) (m : Storage) : Bool :=
  m.rising && m.all (fun c => decide (c.1 < size) && c.2 != 0#32)

/-! ### Register addresses (10_state.md R21, decision D4) -/

/-- Program counter. -/
abbrev Reg.PC : Nat := 0
/-- Instruction register. -/
abbrev Reg.IR : Nat := 1
/-- Stack base pointer. -/
abbrev Reg.SPR : Nat := 2
/-- Top-of-stack pointer. -/
abbrev Reg.TSP : Nat := 3
/-- "Base" pointer: plain storage (R34). -/
abbrev Reg.BPR : Nat := 4
/-- "Base" pointer's pair: plain storage (R34). -/
abbrev Reg.BPN : Nat := 5
/-- "Constant" pointer: plain storage (R34). -/
abbrev Reg.CPR : Nat := 6
/-- "Constant" pointer's pair: plain storage (R34). -/
abbrev Reg.CPN : Nat := 7
/-- "Variable-message" pointer: plain storage (R34). -/
abbrev Reg.VPR : Nat := 8
/-- "Variable-message" pointer's pair: plain storage (R34). -/
abbrev Reg.VPN : Nat := 9
/-- General register R<n>, n = 0 .. 15, at GPR_BASE + n (R25). -/
abbrev Reg.GPR (n : Nat) : Nat := 16 + n

end Sys2Proof.Machine
end

