-- ==== Sys2Proof/Machine/State.lean ====
section
/-! DEFINITION. The machine's state (10_state.md R20), its reset value (R40), and the reasons a step of the model can stop. -/

namespace Sys2Proof.Machine

/-- RUN (10_state.md R30). -/
inductive RunState where
  | idle      -- after reset; the host may load storage
  | running   -- the core takes steps
  | halted    -- an EOP was executed
  | faulted   -- a fault was raised
  deriving DecidableEq, Repr

/-- The six faults of 60_exceptions.md R230. -/
inductive FaultKind where
  | unknownOpcode
  | immediateNotWritable
  | divisionByZero
  | stackUnderflow
  | stackOverflow
  | invalidAddress
  deriving DecidableEq, Repr

/-- A resolved location (40_addressing_resolver.md R111). -/
inductive Loc where
  | reg (a : Nat)   -- `Reg(a)`, a register address already checked
  | mem (a : Nat)   -- `Mem(a)`, a memory address already checked
  | imm (v : Word)  -- `Imm(v)`, a value with no storage behind it
  deriving DecidableEq, Repr

/-- The complete state of the machine (R20). -/
structure State where
  /-- The configuration (00_scope.md R6): no state of the hardware, changed by nothing (entry 2). -/
  cfg : Config
  /-- The register array `x` (R21). -/
  regs : Storage
  /-- The memory array `M` (20_memory.md R50). -/
  mem : Storage
  /-- RUN (R30). -/
  run : RunState
  /-- FLT (R31): `none` is the code 0. -/
  flt : Option FaultKind
  /-- OUT, oldest first (00_scope.md R14). -/
  out : List Word
  /-- IN: the values supplied and not yet taken, next first (00_scope.md R15, entry 6). -/
  input : List Word
  /-- The hidden latch W, written by FETCH (R32, entry 7). -/
  w : Word
  /-- The location a waiting SCAN will write: an unfinished step (41_execution_engine.md R151, entry 5). -/
  scanWait : Option Loc
  deriving DecidableEq, Repr

/-- Reasons a step of the MODEL stops. The machine's six faults are not here: raising one is a next state with RUN =
FAULTED (`takeFault`, 60_exceptions.md R240). -/
inductive Fault where
  /-- Raised by `step` alone, in a state whose configuration breaks a constraint of 00_scope.md R6: the spec admits no such
  machine. Safe: the model then says nothing (entry 9). -/
  | inadmissibleConfig
  deriving DecidableEq, Repr

/-- Reasons the model gives an instruction no meaning. -/
inductive Refusal where
  /-- Raised by an arm of `exec` for an instruction not modelled; no arm does. Safe. -/
  | notModelled (mnemonic : String)
  deriving DecidableEq, Repr

/-- The state after reset under a configuration (R40; 70_reset_and_hazards.md R260), with nothing supplied on IN. -/
def State.resetWith (c : Config) : State where
  cfg := c
  regs := (Storage.store [] Reg.SPR (wrap c.stackBase)).store Reg.TSP (wrap ((c.stackBase : Int) - 1))
  mem := []
  run := .idle
  flt := none
  out := []
  input := []
  w := 0
  scanWait := none

/-- The state after reset with the default parameters of 00_scope.md R6. -/
def State.reset : State := State.resetWith Config.standard

end Sys2Proof.Machine
end

