-- ==== Sys2Proof/Machine/Ops.lean ====
section
/-! DEFINITION. The named operations over registers, memory, the channels and the stack (00_scope.md R10), taking a fault
(60_exceptions.md R240), and FETCH (41_execution_engine.md R141). -/

namespace Sys2Proof.Machine

/-! ### What a part of a step answers -/

/-- A part of a step: it goes on with a value, or a fault is raised in the state of that moment (41_execution_engine.md
R148: what was done before the fault point stays). -/
inductive Res (α : Type) where
  | ok (a : α) (s : State)
  | raised (f : FaultKind) (s : State)
  deriving DecidableEq, Repr

/-- First `r`, then `k`; a fault ends the step there (41_execution_engine.md R145). -/
def Res.andThen {α β : Type} (r : Res α) (k : α → State → Res β) : Res β :=
  match r with
  | .ok a s => k a s
  | .raised f s => .raised f s

/-! ### Registers and memory (00_scope.md R10, R13) -/

/-- `x[a]`. -/
def State.readReg (s : State) (a : Nat) : Word := s.regs.load a

/-- `x[a] <- v`. The array is uniform: no register is hardwired (10_state.md R22, R25). -/
def State.writeReg (s : State) (a : Nat) (v : Word) : State := { s with regs := s.regs.store a v }

/-- `MemRead(a, 1)`. -/
def State.readMem (s : State) (a : Nat) : Word := s.mem.load a

/-- `MemWrite(a, 1, v)`. -/
def State.writeMem (s : State) (a : Nat) (v : Word) : State := { s with mem := s.mem.store a v }

/-- `CheckReg(a)`. -/
def checkReg (a : Nat) (s : State) : Res Nat :=
  if a < s.cfg.nreg then .ok a s else .raised .invalidAddress s

/-- `CheckMem(a)`, `a` a mathematical integer; it hands on the cell's index. -/
def checkMem (a : Int) (s : State) : Res Nat :=
  if 0 ≤ a ∧ a < (s.cfg.memSize : Int) then .ok a.toNat s else .raised .invalidAddress s

/-! ### Run state and faults -/

/-- The number FLT holds for each fault (60_exceptions.md R231, decision D21). -/
def FaultKind.code : FaultKind → Nat
  | .unknownOpcode => 1
  | .immediateNotWritable => 2
  | .divisionByZero => 3
  | .stackUnderflow => 4
  | .stackOverflow => 5
  | .invalidAddress => 6

/-- FLT as the number of 10_state.md R31. -/
def State.fltCode (s : State) : Nat :=
  match s.flt with
  | none => 0
  | some f => f.code

/-- Taking a fault (60_exceptions.md R240): RUN and FLT, nothing else. There is no handler, nothing is saved, and there is
no return from it (R242, R243): only `reset` leaves the state. -/
def takeFault (f : FaultKind) (s : State) : State := { s with run := .faulted, flt := some f }

/-- `RUN <- HALTED` (42_pure_control.md R162). -/
def State.halt (s : State) : State := { s with run := .halted }

/-- The end of a step: a fault raised on the way is taken (41_execution_engine.md R149, last line). -/
def finish (r : Res Unit) : Host.Outcome State Fault Refusal :=
  match r with
  | .ok _ s => .next s
  | .raised f s => .next (takeFault f s)

/-! ### The channels -/

/-- `Out(v)` (00_scope.md R14). -/
def State.emit (s : State) (v : Word) : State := { s with out := s.out ++ [v] }

/-- IN becomes `rest`, and no SCAN waits any more: the input value was taken (43_write_only.md R178). -/
def State.tookInput (s : State) (rest : List Word) : State := { s with input := rest, scanWait := none }

/-- The step waits for input with its destination resolved (41_execution_engine.md R151). -/
def State.awaitInput (s : State) (l : Loc) : State := { s with scanWait := some l }

/-! ### The stack sub-operations (40_addressing_resolver.md R124 to R126) -/

/-- `StackPush()` (R124). -/
def stackPush (s : State) : Res Loc :=
  let t : Int := (s.readReg Reg.TSP).signed + 1
  if t > s.cfg.stackLimit then .raised .stackOverflow s
  else (checkMem t s).andThen fun a s => .ok (.mem a) (s.writeReg Reg.TSP (wrap t))

/-- `StackPop()` (R125). -/
def stackPop (s : State) : Res Loc :=
  let t : Int := (s.readReg Reg.TSP).signed
  if t < (s.readReg Reg.SPR).signed then .raised .stackUnderflow s
  else (checkMem t s).andThen fun a s => .ok (.mem a) (s.writeReg Reg.TSP (wrap (t - 1)))

/-- `StackTop()` (R126). -/
def stackTop (s : State) : Res Loc :=
  let t : Int := (s.readReg Reg.TSP).signed
  if t < (s.readReg Reg.SPR).signed then .raised .stackUnderflow s
  else (checkMem t s).andThen fun a s => .ok (.mem a) s

/-! ### FETCH -/

/-- FETCH's writes: W the word, IR its address, PC the next address (41_execution_engine.md R141). -/
def State.fetched (s : State) (a : Nat) : State :=
  (({ s with w := s.readMem a }).writeReg Reg.IR (wrap a)).writeReg Reg.PC (wrap ((a : Int) + 1))

/-- FETCH (R141): with the PC outside memory, InvalidAddress, and PC and IR keep their values. -/
def fetch (s : State) : Res Unit :=
  (checkMem (s.readReg Reg.PC).signed s).andThen fun a s => .ok () (s.fetched a)

end Sys2Proof.Machine
end

