-- ==== Sys2Proof/Machine/Operands.lean ====
section
/-! DEFINITION. The addressing-mode resolver: the eight modes and the three uses of a location
(40_addressing_resolver.md R110 to R123). -/

namespace Sys2Proof.Machine

/-! ### The eight modes -/

/-- Mode 000, register direct (R112). -/
def resolveReg (o : Nat) (s : State) : Res Loc :=
  (checkReg o s).andThen fun a s => .ok (.reg a) s

/-- Mode 001, register indirect (R113). -/
def resolveRegInd (o : Nat) (s : State) : Res Loc :=
  (checkReg o s).andThen fun a s => (checkMem (s.readReg a).signed s).andThen fun ea s => .ok (.mem ea) s

/-- Mode 010, immediate: the field zero-extended (R114; 30_encoding.md R76). -/
def resolveImm (v : Nat) (s : State) : Res Loc := .ok (.imm (BitVec.ofNat 32 v)) s

/-- Mode 011, indirect (R115). -/
def resolveInd (o : Nat) (s : State) : Res Loc :=
  (checkMem o s).andThen fun a s => (checkMem (s.readMem a).signed s).andThen fun ea s => .ok (.mem ea) s

/-- Mode 100, indexed: the sum is a mathematical integer, with no wrap (R116). -/
def resolveIdx (o : Nat) (s : State) : Res Loc :=
  (checkReg o s).andThen fun a s =>
    (checkMem ((s.readReg a).signed + s.cfg.disp) s).andThen fun ea s => .ok (.mem ea) s

/-- Mode 101, auto-increment and auto-decrement: the register moves here, once, and the value is captured (R117, R123). -/
def resolveAuto (d : Direction) (o : Nat) (s : State) : Res Loc :=
  (checkReg o s).andThen fun a s =>
    let v := s.readReg a
    match d with
    | .increment => .ok (.imm v) (s.writeReg a (wrap ((v.unsigned : Int) + 1)))
    | .decrement => .ok (.imm (wrap ((v.unsigned : Int) - 1))) (s.writeReg a (wrap ((v.unsigned : Int) - 1)))

/-- Mode 110, direct (R118). -/
def resolveDirect (o : Nat) (s : State) : Res Loc :=
  (checkMem o s).andThen fun a s => .ok (.mem a) s

/-- Mode 111 in a field that an instruction resolves names no location (R119). -/
def resolveStack (s : State) : Res Loc := .raised .invalidAddress s

/-- `Resolve(m, o)` (R131). -/
def resolve (o : Operand) (s : State) : Res Loc :=
  match o with
  | .reg a => resolveReg a s
  | .regInd a => resolveRegInd a s
  | .imm v => resolveImm v s
  | .ind a => resolveInd a s
  | .idx a => resolveIdx a s
  | .auto d a => resolveAuto d a s
  | .direct a => resolveDirect a s
  | .stack _ => resolveStack s

/-! ### Using a location -/

/-- `Value(loc)` (R120). -/
def value (l : Loc) (s : State) : Word :=
  match l with
  | .reg a => s.readReg a
  | .mem a => s.readMem a
  | .imm v => v

/-- `Write(loc, v)` (R121). -/
def write (l : Loc) (v : Word) (s : State) : Res Unit :=
  match l with
  | .reg a => .ok () (s.writeReg a v)
  | .mem a => .ok () (s.writeMem a v)
  | .imm _ => .raised .immediateNotWritable s

/-- `Target(loc)`: the memory address itself, the register's content, the immediate (R122). -/
def target (l : Loc) (s : State) : Word :=
  match l with
  | .mem a => wrap a
  | .reg a => s.readReg a
  | .imm v => v

/-- `In()` and the write of SCAN's destination (43_write_only.md R175, R178): with no value there, the step waits
(41_execution_engine.md R151); the first run and a later one of a waiting step are this same operation. -/
def scanInto (l : Loc) (s : State) : Res Unit :=
  match s.input with
  | [] => .ok () (s.awaitInput l)
  | v :: rest => write l v (s.tookInput rest)

end Sys2Proof.Machine
end

