-- ==== Sys2Proof/Machine/Arithmetic.lean ====
section
/-! DEFINITION. Arithmetic instructions: MOD, ADD, SUB, MUL, DIV (45_arithmetic.md). -/

namespace Sys2Proof.Machine

/-- The exact result of an operation on two integers, or the fault it raises. -/
abbrev ArithOp := Int → Int → Except FaultKind Int

/-- `r = p − q · trunc(p / q)`; DivisionByZero when `q = 0` (R212). -/
def opMod (p q : Int) : Except FaultKind Int :=
  if q = 0 then .error .divisionByZero else .ok (p - q * p.tdiv q)

/-- `r = p + q` (R213). -/
def opAdd (p q : Int) : Except FaultKind Int := .ok (p + q)

/-- `r = p − q` (R214). -/
def opSub (p q : Int) : Except FaultKind Int := .ok (p - q)

/-- `r = p · q` (R215). -/
def opMul (p q : Int) : Except FaultKind Int := .ok (p * q)

/-- `r = trunc(p / q)`, rounded toward zero; DivisionByZero when `q = 0` (R216). -/
def opDiv (p q : Int) : Except FaultKind Int :=
  if q = 0 then .error .divisionByZero else .ok (p.tdiv q)

/-- The computation of a step: its result, or the fault raised at that point (41_execution_engine.md R145, point 8). -/
def compute (r : Except FaultKind Int) (s : State) : Res Int :=
  match r with
  | .ok r => .ok r s
  | .error f => .raised f s

/-- The common form (R210): field 1 is resolved once, read and then written with the wrapped result (R211). -/
def arith (op : ArithOp) (f1 f2 : Operand) (s : State) : Host.Outcome State Fault Refusal :=
  finish ((resolve f1 s).andThen fun l1 s => (resolve f2 s).andThen fun l2 s =>
    (compute (op (value l1 s).signed (value l2 s).signed) s).andThen fun r s => write l1 (wrap r) s)

/-- MOD (R212). -/
def execMod (f1 f2 : Operand) (s : State) : Host.Outcome State Fault Refusal := arith opMod f1 f2 s

/-- ADD (R213). -/
def execAdd (f1 f2 : Operand) (s : State) : Host.Outcome State Fault Refusal := arith opAdd f1 f2 s

/-- SUB (R214). -/
def execSub (f1 f2 : Operand) (s : State) : Host.Outcome State Fault Refusal := arith opSub f1 f2 s

/-- MUL (R215). -/
def execMul (f1 f2 : Operand) (s : State) : Host.Outcome State Fault Refusal := arith opMul f1 f2 s

/-- DIV (R216). -/
def execDiv (f1 f2 : Operand) (s : State) : Host.Outcome State Fault Refusal := arith opDiv f1 f2 s

end Sys2Proof.Machine
end

