-- ==== Sys2Proof/Machine/Flags.lean ====
section
/-! DEFINITION. The machine has no status flags (10_state.md R35); what stands in their place is the test of a signed value
against zero that each conditional jump makes (44_control_transfer.md R191 to R197). -/

namespace Sys2Proof.Machine

/-- JEQ's condition (R192). -/
def condEq (v : Int) : Bool := decide (v = 0)
/-- JNE's condition (R193). -/
def condNe (v : Int) : Bool := decide (v ≠ 0)
/-- JLT's condition (R194). -/
def condLt (v : Int) : Bool := decide (v < 0)
/-- JLE's condition (R195). -/
def condLe (v : Int) : Bool := decide (v ≤ 0)
/-- JGT's condition (R196). -/
def condGt (v : Int) : Bool := decide (v > 0)
/-- JGE's condition (R197). -/
def condGe (v : Int) : Bool := decide (v ≥ 0)

end Sys2Proof.Machine
end

