-- ==== Sys2Proof/Machine/ControlTransfer.lean ====
section
/-! DEFINITION. Control-transfer instructions: JEQ to JGE, JMP, CALL, RET (44_control_transfer.md). -/

namespace Sys2Proof.Machine

/-- The common form of the conditional jumps (R191): both fields are resolved whether or not the jump is taken. -/
def condJump (cond : Int → Bool) (f1 f2 : Operand) (s : State) : Host.Outcome State Fault Refusal :=
  finish ((resolve f1 s).andThen fun l1 s => (resolve f2 s).andThen fun l2 s =>
    .ok () (if cond (value l1 s).signed then s.writeReg Reg.PC (target l2 s) else s))

/-- JEQ (R192). -/
def execJeq (f1 f2 : Operand) (s : State) : Host.Outcome State Fault Refusal := condJump condEq f1 f2 s

/-- JNE (R193). -/
def execJne (f1 f2 : Operand) (s : State) : Host.Outcome State Fault Refusal := condJump condNe f1 f2 s

/-- JLT (R194). -/
def execJlt (f1 f2 : Operand) (s : State) : Host.Outcome State Fault Refusal := condJump condLt f1 f2 s

/-- JLE (R195). -/
def execJle (f1 f2 : Operand) (s : State) : Host.Outcome State Fault Refusal := condJump condLe f1 f2 s

/-- JGT (R196). -/
def execJgt (f1 f2 : Operand) (s : State) : Host.Outcome State Fault Refusal := condJump condGt f1 f2 s

/-- JGE (R197). -/
def execJge (f1 f2 : Operand) (s : State) : Host.Outcome State Fault Refusal := condJump condGe f1 f2 s

/-- JMP (R198). -/
def execJmp (f1 : Operand) (s : State) : Host.Outcome State Fault Refusal :=
  finish ((resolve f1 s).andThen fun l1 s => .ok () (s.writeReg Reg.PC (target l1 s)))

/-- CALL (R199): the target is computed before the push, and the PC pushed is the next address. -/
def execCall (f1 : Operand) (s : State) : Host.Outcome State Fault Refusal :=
  finish ((resolve f1 s).andThen fun l1 s =>
    let t := target l1 s
    (stackPush s).andThen fun ls s =>
      (write ls (s.readReg Reg.PC) s).andThen fun _ s => .ok () (s.writeReg Reg.PC t))

/-- RET (R200): both fields are ignored. -/
def execRet (s : State) : Host.Outcome State Fault Refusal :=
  finish ((stackPop s).andThen fun ls s => .ok () (s.writeReg Reg.PC (value ls s)))

end Sys2Proof.Machine
end

