-- ==== Sys2Proof/Machine/PureControl.lean ====
section
/-! DEFINITION. Pure-control instructions: PRNT, EOP (42_pure_control.md). -/

namespace Sys2Proof.Machine

/-- PRNT (R161). -/
def execPrnt (f1 : Operand) (s : State) : Host.Outcome State Fault Refusal :=
  finish ((resolve f1 s).andThen fun l1 s => .ok () (s.emit (value l1 s)))

/-- EOP (R162): both fields are ignored. -/
def execEop (s : State) : Host.Outcome State Fault Refusal := finish (.ok () s.halt)

end Sys2Proof.Machine
end

