-- ==== Sys2Proof/Machine/WriteOnly.lean ====
section
/-! DEFINITION. Write-only instructions: MOV, PUSH, POP, TOP, SCAN (43_write_only.md). -/

namespace Sys2Proof.Machine

/-- MOV (R171): field 1 the source, field 2 the destination; read after both are resolved
(40_addressing_resolver.md R129). -/
def execMov (f1 f2 : Operand) (s : State) : Host.Outcome State Fault Refusal :=
  finish ((resolve f1 s).andThen fun l1 s => (resolve f2 s).andThen fun l2 s => write l2 (value l1 s) s)

/-- PUSH (R172): the value is read after TSP moved. -/
def execPush (f1 : Operand) (s : State) : Host.Outcome State Fault Refusal :=
  finish ((resolve f1 s).andThen fun l1 s => (stackPush s).andThen fun ls s => write ls (value l1 s) s)

/-- POP (R173): TSP moves before the destination is written. -/
def execPop (f1 : Operand) (s : State) : Host.Outcome State Fault Refusal :=
  finish ((resolve f1 s).andThen fun l1 s => (stackPop s).andThen fun ls s => write l1 (value ls s) s)

/-- TOP (R174): TSP does not move. -/
def execTop (f1 : Operand) (s : State) : Host.Outcome State Fault Refusal :=
  finish ((resolve f1 s).andThen fun l1 s => (stackTop s).andThen fun ls s => write l1 (value ls s) s)

/-- SCAN (R175): the destination is resolved before any input is taken. -/
def execScan (f1 : Operand) (s : State) : Host.Outcome State Fault Refusal :=
  finish ((resolve f1 s).andThen fun l1 s => scanInto l1 s)

end Sys2Proof.Machine
end

