-- ==== Sys2Proof/Machine/Dispatch.lean ====
section
/-! DEFINITION. The dispatcher (41_execution_engine.md R143): one arm per instruction. `exec` is the part of a step after
FETCH and DECODE: DISPATCH, WRITEBACK and ADVANCE. -/

namespace Sys2Proof.Machine

def exec (i : Instr) (s : State) : Host.Outcome State Fault Refusal :=
  match i with
  -- pure-control
  | .prnt f1 _ => Sys2Proof.Machine.execPrnt f1 s
  | .eop _ _ => Sys2Proof.Machine.execEop s
  -- write-only
  | .mov f1 f2 => Sys2Proof.Machine.execMov f1 f2 s
  | .push f1 _ => Sys2Proof.Machine.execPush f1 s
  | .pop f1 _ => Sys2Proof.Machine.execPop f1 s
  | .top f1 _ => Sys2Proof.Machine.execTop f1 s
  | .call f1 _ => Sys2Proof.Machine.execCall f1 s
  | .ret _ _ => Sys2Proof.Machine.execRet s
  | .scan f1 _ => Sys2Proof.Machine.execScan f1 s
  -- control-transfer
  | .jeq f1 f2 => Sys2Proof.Machine.execJeq f1 f2 s
  | .jne f1 f2 => Sys2Proof.Machine.execJne f1 f2 s
  | .jlt f1 f2 => Sys2Proof.Machine.execJlt f1 f2 s
  | .jle f1 f2 => Sys2Proof.Machine.execJle f1 f2 s
  | .jgt f1 f2 => Sys2Proof.Machine.execJgt f1 f2 s
  | .jge f1 f2 => Sys2Proof.Machine.execJge f1 f2 s
  | .jmp f1 _ => Sys2Proof.Machine.execJmp f1 s
  -- arithmetic
  | .mod f1 f2 => Sys2Proof.Machine.execMod f1 f2 s
  | .add f1 f2 => Sys2Proof.Machine.execAdd f1 f2 s
  | .sub f1 f2 => Sys2Proof.Machine.execSub f1 f2 s
  | .mul f1 f2 => Sys2Proof.Machine.execMul f1 f2 s
  | .div f1 f2 => Sys2Proof.Machine.execDiv f1 f2 s

end Sys2Proof.Machine
end

