-- ==== Sys2Proof/Machine/HostPort.lean ====
section
/-! DEFINITION. The host interface (00_scope.md R16): what the loader and observer can do, and in which run states. -/

namespace Sys2Proof.Machine

/-- One of the two address spaces (20_memory.md R51). -/
inductive Space where
  | registers
  | memory
  deriving DecidableEq, Repr

/-- The host's actions that change the state (R16). -/
inductive HostAction where
  /-- Reset; `supplied` is what the environment offers on IN afterwards: IN after reset is "whatever the environment
  supplies" (10_state.md R40). -/
  | reset (supplied : List Word)
  /-- `load(space, a, v)`. -/
  | load (sp : Space) (a : Nat) (v : Word)
  /-- `start`. -/
  | start
  /-- Supply an input value. -/
  | supply (v : Word)
  deriving DecidableEq, Repr

/-- What `observe` reads: any register, any memory cell, RUN, FLT and OUT (R16). -/
structure Observation where
  regs : Storage
  mem : Storage
  run : RunState
  flt : Option FaultKind
  out : List Word
  deriving DecidableEq, Repr

/-- RUN <- RUNNING, with no step unfinished. -/
def State.started (s : State) : State := { s with run := .running, scanWait := none }

/-- The number of cells of an address space. -/
def State.sizeOf (s : State) : Space → Nat
  | .registers => s.cfg.nreg
  | .memory => s.cfg.memSize

/-- The effect of `load(space, a, v)` on its array. -/
def State.loadCell (s : State) (sp : Space) (a : Nat) (v : Word) : State :=
  match sp with
  | .registers => s.writeReg a v
  | .memory => s.writeMem a v

/-- The word `v` in the memory cell that PC names, where PC names one. -/
def State.placeAtPC (s : State) (v : Word) : State :=
  match checkMem (s.readReg Reg.PC).signed s with
  | .ok a s => s.writeMem a v
  | .raised _ s => s

/-- A host action, `none` where R16 does not allow it: load and start only while IDLE, supply only while RUNNING. Reset
leaves every other piece of state at its reset value (70_reset_and_hazards.md R260, R261). A load outside the array is no
action (entry 10). -/
def hostAct (act : HostAction) (s : State) : Option State :=
  match act with
  | .reset supplied => some { State.resetWith s.cfg with input := supplied }
  | .load sp a v => if s.run = .idle ∧ a < s.sizeOf sp then some (s.loadCell sp a v) else none
  | .start => if s.run = .idle then some s.started else none
  | .supply v => if s.run = .running then some { s with input := s.input ++ [v] } else none

/-- `observe`, allowed when RUN ≠ RUNNING (R16). -/
def hostObserve (s : State) : Option Observation :=
  if s.run = .running then none
  else some { regs := s.regs, mem := s.mem, run := s.run, flt := s.flt, out := s.out }

end Sys2Proof.Machine
end

