-- ==== Sys2Proof/Machine/Step.lean ====
section
/-! DEFINITION. The step (41_execution_engine.md R149) and the place of the next instruction word. -/

namespace Sys2Proof.Machine

/-- DECODE and DISPATCH of the latched word, in the state after FETCH (R142, R143): an unknown pair raises
UnknownOpcode. -/
def decodeAndRun (s : State) : Host.Outcome State Fault Refusal :=
  match decode s.w with
  | .ok i => exec i s
  | .error _ => finish (.raised .unknownOpcode s)

/-- A step of a running core that starts with FETCH (R149). -/
def fetchAndRun (s : State) : Host.Outcome State Fault Refusal :=
  match fetch s with
  | .ok _ s => decodeAndRun s
  | .raised f s => finish (.raised f s)

/-- One step. The core takes one only when RUN = RUNNING (R140); in the other run states nothing changes (entry 4). A step
that waits in its SCAN goes on from there, without a new FETCH (R151). -/
def step (s : State) : Host.Outcome State Fault Refusal :=
  if s.cfg.wf then
    match s.run with
    | .idle | .halted | .faulted => .next s
    | .running =>
      match s.scanWait with
      | some l => finish (scanInto l s)
      | none => fetchAndRun s
  else .fault .inadmissibleConfig

/-- `s` with the word `w` in the cell PC names, started, so that the next step fetches and runs it (entry 8): the host's load
and start (70_reset_and_hazards.md R262). Where PC names no cell there is no place for the word. -/
def State.withFetchWord (s : State) (nbits w : Nat) : State :=
  (s.placeAtPC (BitVec.ofNat 32 (w % 2 ^ nbits))).started

end Sys2Proof.Machine
end

