-- ==== Sys2Proof/Machine/Run.lean ====
section
/-! DEFINITION. The run loop, `while RUN = RUNNING do step` (41_execution_engine.md R147). -/

namespace Sys2Proof.Machine

/-- How a run loop under fuel comes out. -/
inductive RunEnd where
  /-- RUN is not RUNNING any more: the run is over, and this is its final state (00_scope.md R17). -/
  | ended (s : State)
  /-- The fuel is used up and RUN = RUNNING still. The fuel is the model's: the engine has no bound and no watchdog (R147). -/
  | outOfFuel (s : State)
  deriving DecidableEq, Repr

/-- The run loop under fuel, one unit for a step (R147). A step that waits in its SCAN uses fuel too (entry 19). -/
def runLoop : Nat → State → Host.Outcome RunEnd Fault Refusal
  | 0, s => .next (if s.run = .running then .outOfFuel s else .ended s)
  | fuel + 1, s =>
    if s.run = .running then
      match step s with
      | .next t => runLoop fuel t
      | .fault r => .fault r
      | .refused r => .refused r
    else .next (.ended s)

end Sys2Proof.Machine
end

