-- ==== Sys2Proof/Safety.lean ====
section
/-! DEFINITION. What counts as a safe run: the invariant of the machine, the stack's invariant, and the states a run with a
host can reach. -/

namespace Sys2Proof.Machine

/-- A location is what `Resolve` may return: its address is inside its array (40_addressing_resolver.md R111). -/
def Loc.inRange (c : Config) : Loc → Bool
  | .reg a => decide (a < c.nreg)
  | .mem a => decide (a < c.memSize)
  | .imm _ => true

/-- The address `a`, a mathematical integer, names a memory cell (00_scope.md R10, `CheckMem`). -/
def InMem (c : Config) (a : Int) : Prop := 0 ≤ a ∧ a < (c.memSize : Int)

/-- The memory array is in its canonical form. -/
abbrev Memory.wf (s : State) : Bool := s.mem.canonical s.cfg.memSize

/-- The register array is in its canonical form. -/
abbrev Registers.wf (s : State) : Bool := s.regs.canonical s.cfg.nreg

/-- FLT holds a fault exactly when RUN is FAULTED (10_state.md R31). -/
def State.fltAgrees (s : State) : Bool := s.flt.isSome == decide (s.run = .faulted)

/-- Only a running core waits for input, and for a location that exists (41_execution_engine.md R151). -/
def State.waitAgrees (s : State) : Bool :=
  match s.scanWait with
  | none => true
  | some l => decide (s.run = .running) && l.inRange s.cfg

/-- The machine's invariant: an admissible configuration, both arrays in canonical form and inside their sizes, FLT and the
input wait in agreement with RUN. -/
def State.inv (s : State) : Bool :=
  s.cfg.wf && Registers.wf s && Memory.wf s && s.fltAgrees && s.waitAgrees

/-- The machine's invariant, as a proposition. -/
abbrev State.Inv (s : State) : Prop := s.inv = true

/-- The stack's invariant `TSP ≥ SPR − 1` (10_state.md R29). -/
def State.StackOk (s : State) : Prop := (s.readReg Reg.SPR).signed - 1 ≤ (s.readReg Reg.TSP).signed

/-- A run of the core and its host from reset: every state that steps and host actions lead to (00_scope.md R12, R16). -/
inductive Reachable : State → Prop where
  | reset (c : Config) (h : c.wf = true) : Reachable (State.resetWith c)
  | step {s t : State} (h : Reachable s) (hs : step s = .next t) : Reachable t
  | host {s t : State} (h : Reachable s) (a : HostAction) (ha : hostAct a s = some t) : Reachable t

/-- The run from `s` ends, in `t`: with enough fuel the run loop gets there. A claim that a program ends proves this
(41_execution_engine.md R147). -/
def EndsIn (s t : State) : Prop := ∃ fuel, runLoop fuel s = .next (.ended t)

/-- Push the values in order: the stack sub-operation and the write of PUSH (43_write_only.md R172). -/
def pushAll : List Word → State → Res Unit
  | [], s => .ok () s
  | v :: vs, s => (stackPush s).andThen fun l s => (write l v s).andThen fun _ s => pushAll vs s

/-- Pop `n` values, in the order they come: the stack sub-operation and the read of POP (43_write_only.md R173). -/
def popAll : Nat → State → Res (List Word)
  | 0, s => .ok [] s
  | n + 1, s => (stackPop s).andThen fun l s => (popAll n s).andThen fun vs s' => .ok (value l s :: vs) s'

/-- The register that resolving an operand moves: mode 101's (40_addressing_resolver.md R117). -/
def autoReg : Operand → Option Nat
  | .auto _ a => some a
  | .reg _ | .regInd _ | .imm _ | .ind _ | .idx _ | .direct _ | .stack _ => none

/-- The faults each instruction can raise after DECODE: the column "raised by" of 60_exceptions.md R231. -/
def mayRaise : Instr → List FaultKind
  | .eop _ _ => []
  | .prnt _ _ | .jmp _ _ => [.invalidAddress]
  | .jeq _ _ | .jne _ _ | .jlt _ _ | .jle _ _ | .jgt _ _ | .jge _ _ => [.invalidAddress]
  | .mov _ _ | .scan _ _ => [.invalidAddress, .immediateNotWritable]
  | .push _ _ | .call _ _ => [.invalidAddress, .stackOverflow]
  | .ret _ _ => [.invalidAddress, .stackUnderflow]
  | .pop _ _ | .top _ _ => [.invalidAddress, .stackUnderflow, .immediateNotWritable]
  | .add _ _ | .sub _ _ | .mul _ _ => [.invalidAddress, .immediateNotWritable]
  | .mod _ _ | .div _ _ => [.invalidAddress, .divisionByZero, .immediateNotWritable]

/-- An outcome with the latch W of its next state replaced: two outcomes that differ in W alone have equal images. -/
def relatch (x : Word) (o : Host.Outcome State Fault Refusal) : Host.Outcome State Fault Refusal :=
  match o with
  | .next s => .next { s with w := x }
  | .fault r => .fault r
  | .refused r => .refused r

end Sys2Proof.Machine
end

