-- ==== Sys2Proof/Certificates/Slice0/Obligations.lean ====
section
/-! DEFINITION. The statements about the machine, for the provers. "The word at PC" is the word FETCH reads; a state "after
FETCH" is `s.fetched a`. -/

open Sys2Proof Sys2Proof.Machine

namespace Sys2Proof.Statements

/-- A core that takes a step with a FETCH next: an admissible configuration, RUN = RUNNING, no SCAN waiting, the PC inside
memory. -/
def Ready (s : State) : Prop :=
  s.cfg.wf = true ∧ s.run = .running ∧ s.scanWait = none ∧ InMem s.cfg (s.readReg Reg.PC).signed

/-- The memory address PC names. -/
def pcCell (s : State) : Nat := (s.readReg Reg.PC).signed.toNat

/-- The word at PC. -/
def wordAtPC (s : State) : Word := s.readMem (pcCell s)

/-- Everything but the two arrays is the same. -/
def SameButArrays (s t : State) : Prop :=
  t.cfg = s.cfg ∧ t.run = s.run ∧ t.flt = s.flt ∧ t.out = s.out ∧ t.input = s.input ∧ t.w = s.w ∧
  t.scanWait = s.scanWait

/-- What an instruction leaves alone beside the arrays and the channels: the configuration, the latch; and RUN with FLT, but
for the taking of a fault. -/
def SameStatus (s t : State) : Prop :=
  t.cfg = s.cfg ∧ t.w = s.w ∧
  ((t.run = s.run ∧ t.flt = s.flt) ∨ (t.run = .faulted ∧ t.flt.isSome = true))

/-- Both channels and the input wait are the same. -/
def SameChannels (s t : State) : Prop :=
  t.out = s.out ∧ t.input = s.input ∧ t.scanWait = s.scanWait

/-- Every memory cell reads as before. -/
def SameMem (s t : State) : Prop := ∀ b, t.readMem b = s.readMem b

/-- Every memory cell but `a` reads as before. -/
def SameMemBut (a : Nat) (s t : State) : Prop := ∀ b, b ≠ a → t.readMem b = s.readMem b

/-- Every register reads as before but those in the list and those that resolving the fields in the other list moves. -/
def SameRegsBut (rs : List Nat) (fs : List Operand) (s t : State) : Prop :=
  ∀ r, r ∉ rs → (∀ f ∈ fs, autoReg f ≠ some r) → t.readReg r = s.readReg r

/-- The registers an operand names as its own destination: the register of mode 000. -/
def destReg : Operand → List Nat
  | .reg a => [a]
  | .regInd _ | .imm _ | .ind _ | .idx _ | .auto _ _ | .direct _ | .stack _ => []

/-- The rule of one conditional jump (44_control_transfer.md R191) with its condition. -/
def CondJumpRule (jcc : Operand → Operand → Instr) (cond : Int → Prop) : Prop :=
  ∀ (f1 f2 : Operand) (s : State),
    (resolve f1 s = .raised .invalidAddress s → exec (jcc f1 f2) s = .next (takeFault .invalidAddress s)) ∧
    ∀ l1 s1, resolve f1 s = .ok l1 s1 →
      (resolve f2 s1 = .raised .invalidAddress s1 → exec (jcc f1 f2) s = .next (takeFault .invalidAddress s1)) ∧
      ∀ l2 s2, resolve f2 s1 = .ok l2 s2 →
        (cond (value l1 s2).signed → exec (jcc f1 f2) s = .next (s2.writeReg Reg.PC (target l2 s2))) ∧
        (¬ cond (value l1 s2).signed → exec (jcc f1 f2) s = .next s2)

/-- The faults of the two fields of an instruction that resolves both, field 1 first. -/
def FieldFaults (i : Instr) (f1 f2 : Operand) (s : State) : Prop :=
  (resolve f1 s = .raised .invalidAddress s → exec i s = .next (takeFault .invalidAddress s)) ∧
  ∀ l1 s1, resolve f1 s = .ok l1 s1 → resolve f2 s1 = .raised .invalidAddress s1 →
    exec i s = .next (takeFault .invalidAddress s1)

/-- Writing the result `v` to operand 1 of an instruction, in the state `t` before the write. -/
def WritesResult (i : Instr) (s : State) (l : Loc) (v : Word) (t : State) : Prop :=
  (∀ a, l = .reg a → exec i s = .next (t.writeReg a v)) ∧
  (∀ a, l = .mem a → exec i s = .next (t.writeMem a v)) ∧
  (∀ c, l = .imm c → exec i s = .next (takeFault .immediateNotWritable t))

/-- The rule of an arithmetic instruction that raises no fault of its own: `op` of the two signed values, wrapped. -/
def ArithRule (mk : Operand → Operand → Instr) (op : Int → Int → Int) : Prop :=
  ∀ (f1 f2 : Operand) (s : State), FieldFaults (mk f1 f2) f1 f2 s ∧
    ∀ l1 s1 l2 s2, resolve f1 s = .ok l1 s1 → resolve f2 s1 = .ok l2 s2 →
      WritesResult (mk f1 f2) s l1 (wrap (op (value l1 s2).signed (value l2 s2).signed)) s2

/-- The rule of MOD or DIV: DivisionByZero when the right value is zero, whatever operand 1 is; else as `ArithRule`. -/
def DivRule (mk : Operand → Operand → Instr) (op : Int → Int → Int) : Prop :=
  ∀ (f1 f2 : Operand) (s : State), FieldFaults (mk f1 f2) f1 f2 s ∧
    ∀ l1 s1 l2 s2, resolve f1 s = .ok l1 s1 → resolve f2 s1 = .ok l2 s2 →
      (value l2 s2 = 0 → exec (mk f1 f2) s = .next (takeFault .divisionByZero s2)) ∧
      (value l2 s2 ≠ 0 →
        WritesResult (mk f1 f2) s l1 (wrap (op (value l1 s2).signed (value l2 s2).signed)) s2)

/-- The word's opcode bits are the row's (30_encoding.md R80). -/
def HasMatch (mk : Operand → Operand → Instr) (m : Word) : Prop :=
  ∀ f1 f2, encode (mk f1 f2) &&& 0xFE000000#32 = m

end Sys2Proof.Statements

open Sys2Proof.Statements

/-! ### Encoding -/

/-- R84: the layout, the round-trip law, and decoding then encoding clears bits 2:0 only. -/
def Obligations.DecodeOfEncodeIsIdentity : Prop :=
  (∀ i : Instr,
    encode i = i.opcode.cls.code ++ i.opcode.category ++ i.f1.modeBits ++ i.f1.fieldBits ++
      i.f2.modeBits ++ i.f2.fieldBits ++ 0#3) ∧
  (∀ i : Instr, i.WellFormed → decode (encode i) = .ok i) ∧
  (∀ (w : Word) (i : Instr), decode w = .ok i → i.WellFormed ∧ encode i = w &&& 0xFFFFFFF8#32)

/-- R78: bits 2:0 are zero on encode; on decode, and in the execution of the latched word, they make no difference (the latch
itself, which no instruction observes, keeps the word). -/
def Obligations.ReservedBitsMakeNoDifference : Prop :=
  (∀ i : Instr, (encode i).extractLsb' 0 3 = 0#3) ∧
  ∀ w w' : Word, w.extractLsb' 3 29 = w'.extractLsb' 3 29 →
    (∀ i, decode w = .ok i ↔ decode w' = .ok i) ∧
    ∀ (s : State) (x : Word),
      relatch x (decodeAndRun { s with w := w }) = relatch x (decodeAndRun { s with w := w' })

/-- R85: exactly these pairs are unknown, 107 of the 128, and executing such a word raises UnknownOpcode at DECODE. -/
def Obligations.UnknownOpcodesAreExactlyTheUnassignedPairs : Prop :=
  (∀ w : Word, (∀ i, decode w ≠ .ok i) ↔
    (classBits w = 0b00#2 ∧ 2 ≤ (categoryBits w).toNat) ∨ (classBits w = 0b01#2 ∧ 7 ≤ (categoryBits w).toNat) ∨
    (classBits w = 0b10#2 ∧ 7 ≤ (categoryBits w).toNat) ∨ (classBits w = 0b11#2 ∧ 5 ≤ (categoryBits w).toNat)) ∧
  ((List.range 128).filter fun n =>
    (Opcode.lookup (BitVec.ofNat 2 (n / 32)) (BitVec.ofNat 5 (n % 32))).isNone).length = 107 ∧
  ∀ s : State, Ready s → (∀ i, decode (wordAtPC s) ≠ .ok i) →
    step s = .next (takeFault .unknownOpcode (s.fetched (pcCell s)))

/-- The 21 rows of the opcode map: bits 31:25 of each instruction's word (spec's decisions D7, D8). -/
def Obligations.OpcodeBitsOfEveryInstruction : Prop :=
  HasMatch .prnt 0x00000000#32 ∧ HasMatch .eop 0x02000000#32 ∧ HasMatch .mov 0x40000000#32 ∧
  HasMatch .push 0x42000000#32 ∧ HasMatch .pop 0x44000000#32 ∧ HasMatch .top 0x46000000#32 ∧
  HasMatch .call 0x48000000#32 ∧ HasMatch .ret 0x4A000000#32 ∧ HasMatch .scan 0x4C000000#32 ∧
  HasMatch .jeq 0x80000000#32 ∧ HasMatch .jne 0x82000000#32 ∧ HasMatch .jlt 0x84000000#32 ∧
  HasMatch .jle 0x86000000#32 ∧ HasMatch .jgt 0x88000000#32 ∧ HasMatch .jge 0x8A000000#32 ∧
  HasMatch .jmp 0x8C000000#32 ∧ HasMatch .mod 0xC0000000#32 ∧ HasMatch .add 0xC2000000#32 ∧
  HasMatch .sub 0xC4000000#32 ∧ HasMatch .mul 0xC6000000#32 ∧ HasMatch .div 0xC8000000#32

/-- Words written out from the encoding (95_test_vectors.md section 2.1) decode to the instructions they stand for. -/
def Obligations.SampleWordsDecode : Prop :=
  decode 0b01_00000_010_00001010_000_00010001_000#32 = .ok (.mov (.imm 10) (.reg 17)) ∧
  decode 0b11_00010_110_11001000_101_10010011_000#32 = .ok (.sub (.direct 200) (.auto .decrement 19)) ∧
  decode 0b11_00001_100_00010010_101_00010011_000#32 = .ok (.add (.idx 18) (.auto .increment 19)) ∧
  decode 0b01_00000_001_00010001_011_00101001_000#32 = .ok (.mov (.regInd 17) (.ind 41)) ∧
  decode 0b01_00001_000_00010001_111_00000000_000#32 = .ok (.push (.reg 17) (.stack 0)) ∧
  decode 0b10_00000_000_00010001_110_00000110_000#32 = .ok (.jeq (.reg 17) (.direct 6)) ∧
  decode 0b00_00001_000_00000000_000_00000000_000#32 = .ok (.eop (.reg 0) (.reg 0))

/-! ### The resolver -/

/-- R112, R114, R118: register direct, immediate, direct. -/
def Obligations.RegisterImmediateAndDirectModes : Prop :=
  (∀ (o : Nat) (s : State),
    (o < s.cfg.nreg → resolve (.reg o) s = .ok (.reg o) s) ∧
    (s.cfg.nreg ≤ o → resolve (.reg o) s = .raised .invalidAddress s)) ∧
  (∀ (v : BitVec 8) (c : Word) (s : State),
    resolve (.imm v.toNat) s = .ok (.imm (v.zeroExtend 32)) s ∧ write (.imm (v.zeroExtend 32)) c s =
      .raised .immediateNotWritable s) ∧
  (∀ (o : Nat) (s : State),
    (o < s.cfg.memSize → resolve (.direct o) s = .ok (.mem o) s) ∧
    (s.cfg.memSize ≤ o → resolve (.direct o) s = .raised .invalidAddress s))

/-- R113, R115: register indirect and indirect, the pointer read as a signed address. -/
def Obligations.IndirectModes : Prop :=
  (∀ (o : Nat) (s : State),
    (o < s.cfg.nreg → ∀ a : Nat, a < s.cfg.memSize → (s.readReg o).signed = a →
      resolve (.regInd o) s = .ok (.mem a) s) ∧
    (s.cfg.nreg ≤ o → resolve (.regInd o) s = .raised .invalidAddress s) ∧
    ((s.readReg o).signed < 0 ∨ (s.cfg.memSize : Int) ≤ (s.readReg o).signed →
      resolve (.regInd o) s = .raised .invalidAddress s)) ∧
  (∀ (o : Nat) (s : State),
    (o < s.cfg.memSize → ∀ a : Nat, a < s.cfg.memSize → (s.readMem o).signed = a →
      resolve (.ind o) s = .ok (.mem a) s) ∧
    (s.cfg.memSize ≤ o → resolve (.ind o) s = .raised .invalidAddress s) ∧
    ((s.readMem o).signed < 0 ∨ (s.cfg.memSize : Int) ≤ (s.readMem o).signed →
      resolve (.ind o) s = .raised .invalidAddress s))

/-- The indexed mode: the register's signed content plus DISP, with no wrap (the per-machine displacement is the spec's
decision D16). -/
def Obligations.IndexedModeAddsTheDisplacement : Prop :=
  ∀ (o : Nat) (s : State),
    (o < s.cfg.nreg → ∀ a : Nat, a < s.cfg.memSize → (s.readReg o).signed + s.cfg.disp = a →
      resolve (.idx o) s = .ok (.mem a) s) ∧
    (s.cfg.nreg ≤ o → resolve (.idx o) s = .raised .invalidAddress s) ∧
    ((s.readReg o).signed + s.cfg.disp < 0 ∨ (s.cfg.memSize : Int) ≤ (s.readReg o).signed + s.cfg.disp →
      resolve (.idx o) s = .raised .invalidAddress s) ∧
    (s.cfg.disp = 0 → resolve (.idx o) s = resolve (.regInd o) s)

/-- Mode 101: the value before the increment, or after the decrement, is captured; the register moves by one modulo 2^32,
once; a register address out of range changes nothing (spec's decision D14). -/
def Obligations.AutoModeCapturesTheValueAndMovesTheRegister : Prop :=
  ∀ (a : Nat) (s : State),
    (a < s.cfg.nreg →
      resolve (.auto .increment a) s = .ok (.imm (s.readReg a)) (s.writeReg a (s.readReg a + 1#32)) ∧
      resolve (.auto .decrement a) s = .ok (.imm (s.readReg a - 1#32)) (s.writeReg a (s.readReg a - 1#32))) ∧
    (s.cfg.nreg ≤ a → ∀ d, resolve (.auto d a) s = .raised .invalidAddress s)

/-- Mode 111 in a resolved field raises InvalidAddress with nothing changed (spec's decision D15). -/
def Obligations.StackModeNamesNoLocation : Prop :=
  ∀ (o : Nat) (s : State), resolve (.stack o) s = .raised .invalidAddress s

/-- What resolving any operand can do: a location inside its array, no memory cell changed and no register but the one mode
101 moves; or InvalidAddress and nothing changed. -/
def Obligations.ResolvingIsCheckedAndChangesOnlyTheAutoRegister : Prop :=
  ∀ (o : Operand) (s : State),
    (∀ l t, resolve o s = .ok l t →
      l.inRange s.cfg = true ∧ SameButArrays s t ∧ t.mem = s.mem ∧ SameRegsBut [] [o] s t) ∧
    (∀ f t, resolve o s = .raised f t → f = .invalidAddress ∧ t = s)

/-- Writing a location and reading it: what was written is read there, and every other location in storage reads as before. -/
def Obligations.ValueAfterWrite : Prop :=
  ∀ (l k : Loc) (v : Word) (s t : State), write l v s = .ok () t →
    value l t = v ∧ (k ≠ l → value k t = value k s) ∧ SameButArrays s t

/-! ### The stack -/

/-- The LIFO law over the stack sub-operations: what is pushed comes back in reverse order, one more pop of an empty stack
underflows, and the default stack holds 64 elements (that bound is the spec's own inference). -/
def Obligations.LastInFirstOut : Prop :=
  (∀ (vs : List Word) (s : State), s.cfg.wf = true → -1 ≤ (s.readReg Reg.TSP).signed → s.StackOk →
    (s.readReg Reg.TSP).signed + vs.length ≤ s.cfg.stackLimit →
    ∃ t u, pushAll vs s = .ok () t ∧ popAll vs.length t = .ok vs.reverse u ∧
      (∀ r, u.readReg r = s.readReg r) ∧
      ((s.readReg Reg.TSP).signed < (s.readReg Reg.SPR).signed → stackPop u = .raised .stackUnderflow u)) ∧
  (∀ vs : List Word, vs.length = 64 → ∃ t, pushAll vs State.reset = .ok () t ∧ stackPush t = .raised .stackOverflow t)

/-- PUSH, POP, TOP, CALL and RET keep the stack's invariant `TSP ≥ SPR − 1` when no operand that they use writes SPR or
TSP. -/
def Obligations.StackInstructionsKeepTheStackInvariant : Prop :=
  ∀ (f1 f2 : Operand) (i : Instr) (s t : State),
    i ∈ [Instr.push f1 f2, .pop f1 f2, .top f1 f2, .call f1 f2, .ret f1 f2] →
    s.cfg.wf = true → s.StackOk →
    (∀ r ∈ [Reg.SPR, Reg.TSP], (i ≠ .ret f1 f2 → autoReg f1 ≠ some r) ∧
      (i ∈ [Instr.pop f1 f2, .top f1 f2] → f1 ≠ .reg r)) →
    exec i s = .next t → t.StackOk

/-! ### Pure-control instructions -/

/-- R161: PRNT. -/
def Obligations.PrntSendsTheValue : Prop :=
  HasMatch .prnt 0x00000000#32 ∧ decode 0#32 = .ok (.prnt (.reg Reg.PC) (.reg 0)) ∧
  ∀ (f1 f2 : Operand) (s : State),
    (resolve f1 s = .raised .invalidAddress s → exec (.prnt f1 f2) s = .next (takeFault .invalidAddress s)) ∧
    ∀ l1 s1, resolve f1 s = .ok l1 s1 →
      exec (.prnt f1 f2) s = .next { s1 with out := s1.out ++ [value l1 s1] }

/-- R162: EOP. -/
def Obligations.EopHaltsTheCore : Prop :=
  HasMatch .eop 0x02000000#32 ∧
  (∀ (f1 f2 : Operand) (s : State), exec (.eop f1 f2) s = .next { s with run := .halted }) ∧
  ∀ (f1 f2 : Operand) (s : State), Ready s → decode (wordAtPC s) = .ok (.eop f1 f2) →
    ∃ t, step s = .next t ∧ t.run = .halted ∧ t.readReg Reg.PC = s.readReg Reg.PC + 1#32 ∧
      t.readReg Reg.IR = s.readReg Reg.PC ∧ ∀ u, step t = .next u → u = t

/-! ### Write-only instructions -/

/-- R171: MOV. -/
def Obligations.MovCopiesField1ToField2 : Prop :=
  HasMatch .mov 0x40000000#32 ∧
  ∀ (f1 f2 : Operand) (s : State), FieldFaults (.mov f1 f2) f1 f2 s ∧
    ∀ l1 s1 l2 s2, resolve f1 s = .ok l1 s1 → resolve f2 s1 = .ok l2 s2 →
      WritesResult (.mov f1 f2) s l2 (value l1 s2) s2

/-- R172: PUSH. -/
def Obligations.PushMovesTspThenWrites : Prop :=
  HasMatch .push 0x42000000#32 ∧
  ∀ (f1 f2 : Operand) (s : State),
    (resolve f1 s = .raised .invalidAddress s → exec (.push f1 f2) s = .next (takeFault .invalidAddress s)) ∧
    ∀ l1 s1, resolve f1 s = .ok l1 s1 →
      ((s1.readReg Reg.TSP).signed + 1 > s1.cfg.stackLimit →
        exec (.push f1 f2) s = .next (takeFault .stackOverflow s1)) ∧
      ((s1.readReg Reg.TSP).signed + 1 ≤ s1.cfg.stackLimit → (s1.readReg Reg.TSP).signed + 1 < 0 →
        exec (.push f1 f2) s = .next (takeFault .invalidAddress s1)) ∧
      (s1.cfg.wf = true → (s1.readReg Reg.TSP).signed + 1 ≤ s1.cfg.stackLimit →
        0 ≤ (s1.readReg Reg.TSP).signed + 1 →
        exec (.push f1 f2) s =
          .next ((s1.writeReg Reg.TSP (s1.readReg Reg.TSP + 1#32)).writeMem ((s1.readReg Reg.TSP).signed + 1).toNat
            (value l1 (s1.writeReg Reg.TSP (s1.readReg Reg.TSP + 1#32)))))

/-- R173: POP. -/
def Obligations.PopMovesTspThenWrites : Prop :=
  HasMatch .pop 0x44000000#32 ∧
  ∀ (f1 f2 : Operand) (s : State),
    (resolve f1 s = .raised .invalidAddress s → exec (.pop f1 f2) s = .next (takeFault .invalidAddress s)) ∧
    ∀ l1 s1, resolve f1 s = .ok l1 s1 →
      ((s1.readReg Reg.TSP).signed < (s1.readReg Reg.SPR).signed →
        exec (.pop f1 f2) s = .next (takeFault .stackUnderflow s1)) ∧
      ((s1.readReg Reg.SPR).signed ≤ (s1.readReg Reg.TSP).signed → ¬ InMem s1.cfg (s1.readReg Reg.TSP).signed →
        exec (.pop f1 f2) s = .next (takeFault .invalidAddress s1)) ∧
      ((s1.readReg Reg.SPR).signed ≤ (s1.readReg Reg.TSP).signed → InMem s1.cfg (s1.readReg Reg.TSP).signed →
        WritesResult (.pop f1 f2) s l1 (s1.readMem (s1.readReg Reg.TSP).signed.toNat)
          (s1.writeReg Reg.TSP (s1.readReg Reg.TSP - 1#32)))

/-- TOP (field 1 as the destination is the spec's decision D8). -/
def Obligations.TopCopiesTheTopElement : Prop :=
  ∀ (f1 f2 : Operand) (s : State),
    (resolve f1 s = .raised .invalidAddress s → exec (.top f1 f2) s = .next (takeFault .invalidAddress s)) ∧
    ∀ l1 s1, resolve f1 s = .ok l1 s1 →
      ((s1.readReg Reg.TSP).signed < (s1.readReg Reg.SPR).signed →
        exec (.top f1 f2) s = .next (takeFault .stackUnderflow s1)) ∧
      ((s1.readReg Reg.SPR).signed ≤ (s1.readReg Reg.TSP).signed → ¬ InMem s1.cfg (s1.readReg Reg.TSP).signed →
        exec (.top f1 f2) s = .next (takeFault .invalidAddress s1)) ∧
      ((s1.readReg Reg.SPR).signed ≤ (s1.readReg Reg.TSP).signed → InMem s1.cfg (s1.readReg Reg.TSP).signed →
        WritesResult (.top f1 f2) s l1 (s1.readMem (s1.readReg Reg.TSP).signed.toNat) s1)

/-- R175: SCAN with an input value there: the value is consumed, then written. -/
def Obligations.ScanTakesOneInputValue : Prop :=
  HasMatch .scan 0x4C000000#32 ∧
  ∀ (f1 f2 : Operand) (s : State), s.scanWait = none →
    (resolve f1 s = .raised .invalidAddress s → exec (.scan f1 f2) s = .next (takeFault .invalidAddress s)) ∧
    ∀ l1 s1, resolve f1 s = .ok l1 s1 → ∀ v rest, s.input = v :: rest →
      WritesResult (.scan f1 f2) s l1 v { s1 with input := rest }

/-- The input wait (41_execution_engine.md section 2): a SCAN with no input has resolved its field and written nothing; it
stays so; a value the host supplies is written to the location resolved before, with no second resolution. That the wait is
a state of its own whose step changes nothing is the model's choice (entry 5). -/
def Obligations.ScanWaitsAndResumes : Prop :=
  ∀ (f1 f2 : Operand) (s : State) (l : Loc) (s1 : State), Ready s → s.input = [] →
    decode (wordAtPC s) = .ok (.scan f1 f2) → resolve f1 (s.fetched (pcCell s)) = .ok l s1 →
    step s = .next { s1 with scanWait := some l } ∧
    step { s1 with scanWait := some l } = .next { s1 with scanWait := some l } ∧
    ∀ v, ∃ t, hostAct (.supply v) { s1 with scanWait := some l } = some t ∧ step t = finish (write l v s1)

/-! ### Control-transfer instructions -/

/-- The six conditional jumps (conditions and target field are the spec's decision D11). -/
def Obligations.ConditionalJumps : Prop :=
  CondJumpRule .jeq (fun v => v = 0) ∧ CondJumpRule .jne (fun v => v ≠ 0) ∧
  CondJumpRule .jlt (fun v => v < 0) ∧ CondJumpRule .jle (fun v => v ≤ 0) ∧
  CondJumpRule .jgt (fun v => v > 0) ∧ CondJumpRule .jge (fun v => v ≥ 0)

/-- JMP, for each kind of target (D12). -/
def Obligations.JmpGoesToItsTarget : Prop :=
  ∀ (f1 f2 : Operand) (s : State),
    (resolve f1 s = .raised .invalidAddress s → exec (.jmp f1 f2) s = .next (takeFault .invalidAddress s)) ∧
    ∀ l1 s1, resolve f1 s = .ok l1 s1 →
      (∀ a, l1 = .reg a → exec (.jmp f1 f2) s = .next (s1.writeReg Reg.PC (s1.readReg a))) ∧
      (∀ a, l1 = .mem a → exec (.jmp f1 f2) s = .next (s1.writeReg Reg.PC (BitVec.ofNat 32 a))) ∧
      (∀ v, l1 = .imm v → exec (.jmp f1 f2) s = .next (s1.writeReg Reg.PC v))

/-- CALL: the target, then the push of the PC, then the transfer; a faulting CALL transfers nothing (D29). -/
def Obligations.CallPushesThePcAndJumps : Prop :=
  ∀ (f1 f2 : Operand) (s : State),
    (resolve f1 s = .raised .invalidAddress s → exec (.call f1 f2) s = .next (takeFault .invalidAddress s)) ∧
    ∀ l1 s1, resolve f1 s = .ok l1 s1 →
      ((s1.readReg Reg.TSP).signed + 1 > s1.cfg.stackLimit →
        exec (.call f1 f2) s = .next (takeFault .stackOverflow s1)) ∧
      ((s1.readReg Reg.TSP).signed + 1 ≤ s1.cfg.stackLimit → (s1.readReg Reg.TSP).signed + 1 < 0 →
        exec (.call f1 f2) s = .next (takeFault .invalidAddress s1)) ∧
      (s1.cfg.wf = true → (s1.readReg Reg.TSP).signed + 1 ≤ s1.cfg.stackLimit →
        0 ≤ (s1.readReg Reg.TSP).signed + 1 →
        exec (.call f1 f2) s =
          .next (((s1.writeReg Reg.TSP (s1.readReg Reg.TSP + 1#32)).writeMem ((s1.readReg Reg.TSP).signed + 1).toNat
            (s1.readReg Reg.PC)).writeReg Reg.PC (target l1 s1)))

/-- RET: both fields ignored; TSP moves, PC becomes the element that was on top. -/
def Obligations.RetPopsThePc : Prop :=
  ∀ (f1 f2 : Operand) (s : State),
    ((s.readReg Reg.TSP).signed < (s.readReg Reg.SPR).signed →
      exec (.ret f1 f2) s = .next (takeFault .stackUnderflow s)) ∧
    ((s.readReg Reg.SPR).signed ≤ (s.readReg Reg.TSP).signed → ¬ InMem s.cfg (s.readReg Reg.TSP).signed →
      exec (.ret f1 f2) s = .next (takeFault .invalidAddress s)) ∧
    ((s.readReg Reg.SPR).signed ≤ (s.readReg Reg.TSP).signed → InMem s.cfg (s.readReg Reg.TSP).signed →
      exec (.ret f1 f2) s =
        .next ((s.writeReg Reg.TSP (s.readReg Reg.TSP - 1#32)).writeReg Reg.PC
          (s.readMem (s.readReg Reg.TSP).signed.toNat)))

/-- A RET undoes a CALL: whatever PC and IR have become, it goes back to the instruction after the CALL with the stack as
before. -/
def Obligations.RetReturnsAfterTheCall : Prop :=
  ∀ (f1 f2 g1 g2 : Operand) (s s1 t : State) (l1 : Loc) (p q : Word),
    s.cfg.wf = true → s.run = .running → resolve f1 s = .ok l1 s1 → s1.StackOk →
    exec (.call f1 f2) s = .next t → t.run = .running →
    ∃ u, exec (.ret g1 g2) ((t.writeReg Reg.IR q).writeReg Reg.PC p) = .next u ∧
      u.run = .running ∧ u.readReg Reg.PC = s1.readReg Reg.PC ∧ u.readReg Reg.TSP = s1.readReg Reg.TSP

/-- The word the assembler's rewrite makes for a conditional jump has an absent field 2: taken or not, it changes no register
and no memory cell beyond resolving field 1. This is the spec's own inference (30_encoding.md R106), from its decisions D11
(what is tested, where the target is) and D13 (an absent field is register 0); the model reads the rewrite so by entry 18. -/
def Obligations.RewrittenJumpFallsThrough : Prop :=
  ∀ (jcc : Operand → Operand → Instr), jcc ∈ [Instr.jeq, .jne, .jlt, .jle, .jgt, .jge] →
    ∀ (f1 : Operand) (s s1 : State) (l1 : Loc), s.cfg.wf = true → resolve f1 s = .ok l1 s1 →
      ∃ t, exec (jcc f1 Operand.absent) s = .next t ∧ (∀ r, t.readReg r = s1.readReg r) ∧ SameMem s1 t ∧
        SameButArrays s1 t

/-! ### Arithmetic instructions -/

/-- R213, R214, R215: ADD, SUB, MUL. -/
def Obligations.AddSubMulWriteTheResult : Prop :=
  HasMatch .add 0xC2000000#32 ∧ ArithRule .add (fun p q => p + q) ∧
  HasMatch .sub 0xC4000000#32 ∧ ArithRule .sub (fun p q => p - q) ∧
  HasMatch .mul 0xC6000000#32 ∧ ArithRule .mul (fun p q => p * q)

/-- R212, R216: MOD and DIV. -/
def Obligations.ModDivWriteTheResult : Prop :=
  HasMatch .mod 0xC0000000#32 ∧ DivRule .mod (fun p q => p - q * p.tdiv q) ∧
  HasMatch .div 0xC8000000#32 ∧ DivRule .div (fun p q => p.tdiv q)

/-- ADD, SUB and MUL give the same pattern whether the operands are read as signed or unsigned (wrapping is the spec's
decision D1). -/
def Obligations.WrappedResultsIgnoreTheSign : Prop :=
  ∀ p q : Word,
    wrap (p.signed + q.signed) = p + q ∧ wrap ((p.unsigned : Int) + q.unsigned) = p + q ∧
    wrap (p.signed - q.signed) = p - q ∧ wrap ((p.unsigned : Int) - q.unsigned) = p - q ∧
    wrap (p.signed * q.signed) = p * q ∧ wrap ((p.unsigned : Int) * q.unsigned) = p * q

/-- The laws of truncating division on the results DIV and MOD leave in a register: quotient times divisor plus remainder is
the dividend, the remainder is smaller than the divisor and has the dividend's sign; the one wrapped case is −2^31 by −1. -/
def Obligations.TruncatingDivisionLaws : Prop :=
  ∀ (a b : Nat) (s : State), a < s.cfg.nreg → b < s.cfg.nreg → s.readReg b ≠ 0#32 →
    ∃ d m, exec (.div (.reg a) (.reg b)) s = .next d ∧ exec (.mod (.reg a) (.reg b)) s = .next m ∧
      ((s.readReg a = 0x80000000#32 ∧ s.readReg b = 0xFFFFFFFF#32 →
          d.readReg a = 0x80000000#32 ∧ m.readReg a = 0#32) ∧
       (¬ (s.readReg a = 0x80000000#32 ∧ s.readReg b = 0xFFFFFFFF#32) →
          (s.readReg b).signed * (d.readReg a).signed + (m.readReg a).signed = (s.readReg a).signed ∧
          (m.readReg a).signed.natAbs < (s.readReg b).signed.natAbs ∧
          (0 ≤ (s.readReg a).signed → 0 ≤ (m.readReg a).signed) ∧
          ((s.readReg a).signed ≤ 0 → (m.readReg a).signed ≤ 0)))

/-! ### Frames -/

/-- PRNT, JMP and the conditional jumps store nothing: no memory cell changes; PRNT writes only OUT and the jumps only PC,
beside the register of a mode-101 field that they resolve. -/
def Obligations.FrameOfPrntAndJumps : Prop :=
  ∀ (f1 f2 : Operand) (s t : State),
    (exec (.prnt f1 f2) s = .next t →
      SameMem s t ∧ SameRegsBut [] [f1] s t ∧ SameStatus s t ∧ t.input = s.input ∧ t.scanWait = s.scanWait) ∧
    (exec (.jmp f1 f2) s = .next t →
      SameMem s t ∧ SameRegsBut [Reg.PC] [f1] s t ∧ SameStatus s t ∧ SameChannels s t) ∧
    (∀ jcc ∈ [Instr.jeq, .jne, .jlt, .jle, .jgt, .jge], exec (jcc f1 f2) s = .next t →
      SameMem s t ∧ SameRegsBut [Reg.PC] [f1, f2] s t ∧ SameStatus s t ∧ SameChannels s t)

/-- MOV writes its field 2 and nothing else, beside the registers of mode-101 fields; the cell stored to is the one field 2
resolves to in the state after field 1. -/
def Obligations.FrameOfMov : Prop :=
  ∀ (f1 f2 : Operand) (s t : State), exec (.mov f1 f2) s = .next t →
    SameRegsBut (destReg f2) [f1, f2] s t ∧ SameStatus s t ∧ SameChannels s t ∧
    (∀ l1 s1 a s2, resolve f1 s = .ok l1 s1 → resolve f2 s1 = .ok (.mem a) s2 → SameMemBut a s t) ∧
    ((∀ l1 s1 a s2, resolve f1 s = .ok l1 s1 → resolve f2 s1 ≠ .ok (.mem a) s2) → SameMem s t)

/-- The arithmetic instructions write their field 1 and nothing else, beside the registers of mode-101 fields. -/
def Obligations.FrameOfArithmetic : Prop :=
  ∀ (mk : Operand → Operand → Instr), mk ∈ [Instr.mod, .add, .sub, .mul, .div] →
    ∀ (f1 f2 : Operand) (s t : State), exec (mk f1 f2) s = .next t →
      SameRegsBut (destReg f1) [f1, f2] s t ∧ SameStatus s t ∧ SameChannels s t ∧
      (∀ a s1, resolve f1 s = .ok (.mem a) s1 → SameMemBut a s t) ∧
      ((∀ a s1, resolve f1 s ≠ .ok (.mem a) s1) → SameMem s t)

/-- POP, TOP and SCAN write their field 1; POP also moves TSP. SCAN takes the first value of IN and no longer waits; with IN
empty it writes nothing and waits for the location resolved; when its field does not resolve, IN and the wait are as before
(the wait's field is the model's own, entry 5). -/
def Obligations.FrameOfPopTopScan : Prop :=
  ∀ (mk : Operand → Operand → Instr), mk ∈ [Instr.pop, .top, .scan] →
    ∀ (f1 f2 : Operand) (s t : State), exec (mk f1 f2) s = .next t →
      SameRegsBut (destReg f1 ++ if mk f1 f2 = .pop f1 f2 then [Reg.TSP] else []) [f1] s t ∧ SameStatus s t ∧
      t.out = s.out ∧ (mk f1 f2 ≠ .scan f1 f2 → SameChannels s t) ∧
      (mk f1 f2 = .scan f1 f2 →
        (∀ l s1, resolve f1 s = .ok l s1 →
          (s.input = [] → t.input = [] ∧ t.scanWait = some l ∧ t.run = s.run ∧ SameMem s t ∧ SameRegsBut [] [f1] s t) ∧
          (∀ v rest, s.input = v :: rest → t.input = rest ∧ t.scanWait = none)) ∧
        ((∀ l s1, resolve f1 s ≠ .ok l s1) → t.input = s.input ∧ t.scanWait = s.scanWait)) ∧
      (∀ a s1, resolve f1 s = .ok (.mem a) s1 → SameMemBut a s t) ∧
      ((∀ a s1, resolve f1 s ≠ .ok (.mem a) s1) → SameMem s t)

/-- PUSH and CALL store to the cell one above TSP, as TSP is after field 1 is resolved, and to no other; they move TSP, and
CALL the PC. -/
def Obligations.FrameOfPushAndCall : Prop :=
  ∀ (mk : Operand → Operand → Instr), mk ∈ [Instr.push, .call] →
    ∀ (f1 f2 : Operand) (s t : State), exec (mk f1 f2) s = .next t →
      SameRegsBut (Reg.TSP :: if mk f1 f2 = .call f1 f2 then [Reg.PC] else []) [f1] s t ∧
      SameStatus s t ∧ SameChannels s t ∧
      (∀ l1 s1, resolve f1 s = .ok l1 s1 → SameMemBut ((s1.readReg Reg.TSP).signed + 1).toNat s t) ∧
      ((∀ l1 s1, resolve f1 s ≠ .ok l1 s1) → SameMem s t) ∧
      (t.run = .faulted → s.run ≠ .faulted → SameMem s t)

/-- RET stores nothing, moves TSP and PC only and looks at neither field; EOP writes RUN only. -/
def Obligations.FrameOfRetAndEop : Prop :=
  ∀ (f1 f2 : Operand) (s t : State),
    (exec (.ret f1 f2) s = .next t →
      SameMem s t ∧ SameRegsBut [Reg.TSP, Reg.PC] [] s t ∧ SameStatus s t ∧ SameChannels s t) ∧
    (exec (.eop f1 f2) s = .next t →
      t.regs = s.regs ∧ t.mem = s.mem ∧ t.cfg = s.cfg ∧ t.flt = s.flt ∧ t.w = s.w ∧ SameChannels s t)

/-- R240: raising a fault stops the part of the step it is in, sets RUN and FLT and nothing else; no further step changes
anything, and of the host's actions only reset is left. -/
def Obligations.TakingAFaultSetsRunAndFltOnly : Prop :=
  ∀ (f : FaultKind) (s : State),
    (∀ (α β : Type) (k : α → State → Res β), (Res.raised f s).andThen k = .raised f s) ∧
    ∃ t, finish (.raised f s) = .next t ∧ t.run = .faulted ∧ t.fltCode = f.code ∧ t.regs = s.regs ∧ t.mem = s.mem ∧
      t.cfg = s.cfg ∧ t.w = s.w ∧ SameChannels s t ∧ (∀ u, step t = .next u → u = t) ∧
      ∀ (a : HostAction) (u : State), hostAct a t = some u → ∃ supplied, a = .reset supplied

/-- The six fault codes, and FLT as a number: 0 when no fault is recorded, else the fault's code (the numbers are the spec's
decision D21; that FLT is held by name is entry 12). -/
def Obligations.FaultCodesAndTheNumberInFlt : Prop :=
  FaultKind.unknownOpcode.code = 1 ∧ FaultKind.immediateNotWritable.code = 2 ∧ FaultKind.divisionByZero.code = 3 ∧
  FaultKind.stackUnderflow.code = 4 ∧ FaultKind.stackOverflow.code = 5 ∧ FaultKind.invalidAddress.code = 6 ∧
  ∀ s : State, (s.flt = none → s.fltCode = 0) ∧ (∀ f, s.flt = some f → s.fltCode = f.code) ∧
    (s.fltCode ≠ 0 ↔ s.flt.isSome = true)

/-- Each instruction raises only the faults the table of fault codes lists it for (the codes are the spec's decision
D21). -/
def Obligations.InstructionsRaiseOnlyTheirFaults : Prop :=
  ∀ (i : Instr) (s t : State), s.run = .running → exec i s = .next t → t.run = .faulted →
    ∃ f ∈ mayRaise i, t.flt = some f

/-- R32: no instruction can observe the latch W: with another word in it, everything else comes out the same. -/
def Obligations.NoInstructionObservesTheLatch : Prop :=
  ∀ (i : Instr) (s : State) (x : Word), exec i { s with w := x } = relatch x (exec i s)

/-! ### The step -/

/-- A step runs the decoded instruction, in the state after FETCH: IR holds the word's address, PC the next one, W the word,
and nothing else has changed: no other register, no cell, nor RUN, FLT, the channels and the configuration. -/
def Obligations.StepRunsTheDecodedInstruction : Prop :=
  ∀ (s : State) (i : Instr), Ready s → decode (wordAtPC s) = .ok i →
    step s = exec i (s.fetched (pcCell s)) ∧
    (s.fetched (pcCell s)).readReg Reg.IR = s.readReg Reg.PC ∧
    (s.fetched (pcCell s)).readReg Reg.PC = s.readReg Reg.PC + 1#32 ∧
    (s.fetched (pcCell s)).w = wordAtPC s ∧ (s.fetched (pcCell s)).mem = s.mem ∧
    SameRegsBut [Reg.PC, Reg.IR] [] s (s.fetched (pcCell s)) ∧
    SameButArrays { s with w := wordAtPC s } (s.fetched (pcCell s))

/-- A FETCH with the PC outside memory raises InvalidAddress; PC and IR and all else keep their values (spec's decision
D27). -/
def Obligations.FetchOutsideMemoryFaults : Prop :=
  ∀ s : State, s.cfg.wf = true → s.run = .running → s.scanWait = none →
    ((s.readReg Reg.PC).signed < 0 ∨ (s.cfg.memSize : Int) ≤ (s.readReg Reg.PC).signed) →
    step s = .next { s with run := .faulted, flt := some .invalidAddress }

/-- Under an admissible configuration every state has a next state: no word, no operand and no data stop the model, and
nothing is refused; under another, the model says nothing (entry 9). -/
def Obligations.EveryStepHasANextState : Prop :=
  ∀ s : State, (s.cfg.wf = true → ∃ t, step s = .next t) ∧ (s.cfg.wf = false → step s = .fault .inadmissibleConfig)

/-- An idle, halted or faulted core changes nothing; that the model's step then answers the same state is the model's choice
(entry 4). -/
def Obligations.StoppedCoreStaysAsItIs : Prop :=
  ∀ s : State, s.cfg.wf = true → s.run ≠ .running → step s = .next s

/-- The invariant: admissible configuration, canonical arrays inside their sizes, FLT set exactly when RUN is FAULTED, and
only a running core waits, for a location that exists. Every step keeps it. -/
def Obligations.EveryStepKeepsTheInvariant : Prop :=
  ∀ s t : State, s.Inv → step s = .next t → t.Inv

/-- The invariant holds after reset, under every admissible configuration. -/
def Obligations.ResetHasTheInvariant : Prop :=
  State.reset.Inv ∧ ∀ c : Config, c.wf = true → (State.resetWith c).Inv

/-- Every action of the host keeps the invariant (its actions are the spec's decision D25; when they land, entry 15). -/
def Obligations.EveryHostActionKeepsTheInvariant : Prop :=
  ∀ (s t : State) (a : HostAction), s.Inv → hostAct a s = some t → t.Inv

/-- Every state the core and its host can reach from a reset has the invariant. That the host's actions land between steps, or
while a SCAN waits, is entry 15. -/
def Obligations.EveryReachableStateHasTheInvariant : Prop :=
  ∀ s : State, Reachable s → s.Inv

/-- The run state: a running core goes on, halts or faults; it halts by an EOP and by nothing else; the host leaves HALTED
and FAULTED by reset alone (spec's decision D21). -/
def Obligations.RunStateTransitions : Prop :=
  (∀ s t : State, s.run = .running → step s = .next t → t.run ≠ .idle ∧
    (t.run = .halted ↔ Ready s ∧ ∃ f1 f2, decode (wordAtPC s) = .ok (.eop f1 f2))) ∧
  (∀ (s t : State) (a : HostAction), hostAct a s = some t → (s.run = .halted ∨ s.run = .faulted) →
    ∃ supplied, a = .reset supplied ∧ t.run = .idle) ∧
  (∀ (s t : State) (a : HostAction), hostAct a s = some t → s.run = .idle → t.run = .running → a = .start)

/-- OUT only grows, by one value at most in a step, and only by PRNT; IN loses at most its first value. -/
def Obligations.ChannelsOnlyGrowAndDrain : Prop :=
  ∀ s t : State, step s = .next t →
    (t.out = s.out ∨ ∃ v f1 f2, t.out = s.out ++ [v] ∧ decode (wordAtPC s) = .ok (.prnt f1 f2)) ∧
    (t.input = s.input ∨ ∃ v, s.input = v :: t.input)

/-- No step and no host action changes the configuration. -/
def Obligations.ConfigurationNeverChanges : Prop :=
  (∀ s t : State, step s = .next t → t.cfg = s.cfg) ∧
  (∀ (s t : State) (a : HostAction), hostAct a s = some t → t.cfg = s.cfg)

/-- A store into the cell PC names is what the next FETCH runs: no fence, no prefetch. -/
def Obligations.AStoreIsSeenByTheNextFetch : Prop :=
  ∀ (f1 f2 : Operand) (s s1 s2 t : State) (l1 : Loc) (a : Nat) (i : Instr),
    s.cfg.wf = true → s.run = .running → s.scanWait = none →
    resolve f1 s = .ok l1 s1 → resolve f2 s1 = .ok (.mem a) s2 → (s2.readReg Reg.PC).signed = a →
    decode (value l1 s2) = .ok i → exec (.mov f1 f2) s = .next t →
    step t = exec i (t.fetched a)

/-! ### The run loop -/

/-- R147: the loop steps while RUN = RUNNING and does nothing else; it ends when a step sets RUN to HALTED or FAULTED. The fuel
is no bound of the engine: more of it changes no end, a run out of fuel goes on from where it was, and steps that keep to running
states never end. That a unit of fuel is one step of the model, a waiting SCAN's among them, is the model's choice (entry 19). -/
def Obligations.RunLoopStepsWhileRunning : Prop :=
  (∀ (n : Nat) (s : State), s.run ≠ .running → runLoop n s = .next (.ended s)) ∧
  (∀ s : State, s.run = .running → runLoop 0 s = .next (.outOfFuel s)) ∧
  (∀ (n : Nat) (s t : State), s.run = .running → step s = .next t → runLoop (n + 1) s = runLoop n t) ∧
  (∀ (n : Nat) (s t : State), s.run = .running → runLoop n s = .next (.ended t) →
    ∃ k u, k < n ∧ runLoop k s = .next (.outOfFuel u) ∧ u.run = .running ∧ step u = .next t ∧
      (t.run = .halted ∨ t.run = .faulted)) ∧
  (∀ (m n : Nat) (s t : State), runLoop m s = .next (.ended t) → runLoop (m + n) s = .next (.ended t)) ∧
  (∀ (m n : Nat) (s t : State), runLoop m s = .next (.outOfFuel t) → runLoop (m + n) s = runLoop n t) ∧
  (∀ P : State → Prop, (∀ s, P s → s.run = .running ∧ ∃ t, step s = .next t ∧ P t) →
    ∀ s, P s → (∀ n, ∃ t, runLoop n s = .next (.outOfFuel t) ∧ P t) ∧ ∀ t, ¬ EndsIn s t)

/-- From a state with the invariant, the run loop always comes out with a state that has it: RUNNING and out of fuel, or no
longer RUNNING and then with FLT set exactly when FAULTED. A run from a RUNNING state ends HALTED or FAULTED (00_scope.md R17);
from any other state the loop ends at once where it was. The fuel counts steps of the model (entry 19). -/
def Obligations.RunLoopKeepsTheInvariant : Prop :=
  ∀ (n : Nat) (s : State), s.Inv →
    (∃ t, runLoop n s = .next (.outOfFuel t) ∧ t.Inv ∧ t.run = .running ∧ t.fltCode = 0) ∨
    (∃ t, runLoop n s = .next (.ended t) ∧ t.Inv ∧ t.run ≠ .running ∧ (t.run = .faulted ↔ t.fltCode ≠ 0) ∧
      (s.run = .running → t.run = .halted ∨ t.run = .faulted) ∧ (s.run ≠ .running → t = s))

/-! ### Reset and the host -/

/-- The values the spec gives for reset (its decisions D20, D21, D24). The stack pair starts as an empty stack, but for the one
admissible STACK_BASE that is no signed 32-bit number, 2^31 (entry 11). -/
def Obligations.ResetValues : Prop :=
  ∀ c : Config,
    (State.resetWith c).readReg Reg.SPR = wrap c.stackBase ∧
    (State.resetWith c).readReg Reg.TSP = wrap ((c.stackBase : Int) - 1) ∧
    (∀ r, r ≠ Reg.SPR → r ≠ Reg.TSP → (State.resetWith c).readReg r = 0#32) ∧
    (∀ a, (State.resetWith c).readMem a = 0#32) ∧
    (State.resetWith c).run = .idle ∧ (State.resetWith c).fltCode = 0 ∧ (State.resetWith c).out = [] ∧
    (c.wf = true → c.stackBase < 2 ^ 31 → (State.resetWith c).StackOk ∧
      stackTop (State.resetWith c) = .raised .stackUnderflow (State.resetWith c))

/-- The host's actions, the run states they are allowed in, and what observing reads (spec's decision D25; a load outside the
array is refused by the model's choice, entry 10; `scanWait` is the model's own field, which is `none` in every idle state a
run reaches). -/
def Obligations.HostActionsAndWhenTheyAreAllowed : Prop :=
  ∀ s : State,
    (∀ supplied, hostAct (.reset supplied) s = some { State.resetWith s.cfg with input := supplied }) ∧
    (∀ a v, (s.run = .idle ∧ a < s.cfg.nreg → hostAct (.load .registers a v) s = some (s.writeReg a v)) ∧
      (¬ (s.run = .idle ∧ a < s.cfg.nreg) → hostAct (.load .registers a v) s = none)) ∧
    (∀ a v, (s.run = .idle ∧ a < s.cfg.memSize → hostAct (.load .memory a v) s = some (s.writeMem a v)) ∧
      (¬ (s.run = .idle ∧ a < s.cfg.memSize) → hostAct (.load .memory a v) s = none)) ∧
    (s.run = .idle → hostAct .start s = some { s with run := .running, scanWait := none }) ∧
    (s.run ≠ .idle → hostAct .start s = none) ∧
    (∀ v, (s.run = .running → hostAct (.supply v) s = some { s with input := s.input ++ [v] }) ∧
      (s.run ≠ .running → hostAct (.supply v) s = none)) ∧
    (s.run ≠ .running → hostObserve s =
      some { regs := s.regs, mem := s.mem, run := s.run, flt := s.flt, out := s.out }) ∧
    (s.run = .running → hostObserve s = none)

/-- A word placed where the next FETCH reads is the instruction the next step runs (entry 8: the model's stand-in for the
host's load and start). -/
def Obligations.PlacedWordIsTheNextInstruction : Prop :=
  ∀ (s : State) (nbits w : Nat) (i : Instr), s.cfg.wf = true → InMem s.cfg (s.readReg Reg.PC).signed →
    decodeTableWord nbits w = some i →
    step (s.withFetchWord nbits w) = exec i ((s.withFetchWord nbits w).fetched (pcCell s))
end

