-- ==== Sys2Proof/Laws/Encoding.lean ====
section
/-! SUPPORT. The pieces of encoding and decoding: the opcode map, the fields of a word, one operand's bits. -/

namespace Sys2Proof

/-- The opcode map finds every mnemonic by its own code. -/
theorem lookup_code (o : Opcode) : Opcode.lookup o.cls.code o.category = some o := by
  cases o <;> decide

/-- What the opcode map finds has the code looked for. -/
theorem lookup_some {c : BitVec 2} {k : BitVec 5} {o : Opcode} (h : Opcode.lookup c k = some o) :
    o.cls.code = c ∧ o.category = k := by
  simpa using List.find?_some h

/-- The six fields and the reserved bits cut from a word are the parts it was made of. -/
theorem fields_of_parts (c : BitVec 2) (k : BitVec 5) (m1 : BitVec 3) (o1 : BitVec 8) (m2 : BitVec 3)
    (o2 : BitVec 8) :
    let w : Word := c ++ k ++ m1 ++ o1 ++ m2 ++ o2 ++ 0#3
    classBits w = c ∧ categoryBits w = k ∧ mode1Bits w = m1 ∧ operand1Bits w = o1 ∧ mode2Bits w = m2 ∧
      operand2Bits w = o2 ∧ w.extractLsb' 0 3 = 0#3 := by
  refine ⟨?_, ?_, ?_, ?_, ?_, ?_, ?_⟩ <;>
  (apply BitVec.eq_of_getLsbD_eq
   intro i hi
   simp only [classBits, categoryBits, mode1Bits, operand1Bits, mode2Bits, operand2Bits,
     BitVec.getLsbD_extractLsb', BitVec.getLsbD_append]
   interval_cases i <;> simp)

/-- The six fields of a word, put together, are the word with bits 2:0 cleared. -/
theorem parts_of_fields (w : Word) :
    classBits w ++ categoryBits w ++ mode1Bits w ++ operand1Bits w ++ mode2Bits w ++ operand2Bits w ++ 0#3 =
      w &&& 0xFFFFFFF8#32 := by
  apply BitVec.eq_of_getLsbD_eq
  intro i hi
  simp only [classBits, categoryBits, mode1Bits, operand1Bits, mode2Bits, operand2Bits,
    BitVec.getLsbD_extractLsb', BitVec.getLsbD_append, BitVec.getLsbD_and]
  interval_cases i <;> simp

/-- An operand that fits its field is read back from its bits. -/
theorem Operand.ofBits_bits (o : Operand) (h : o.fits = true) : Operand.ofBits o.modeBits o.fieldBits = o := by
  cases o with
  | auto d a =>
    have ha : a < 128 := by simpa [Operand.fits] using h
    have h1 : (d.bit ++ BitVec.ofNat 7 a).extractLsb' 0 7 = BitVec.ofNat 7 a := by
      apply BitVec.eq_of_getLsbD_eq
      intro i hi
      simp only [BitVec.getLsbD_extractLsb', BitVec.getLsbD_append]
      simp [hi]
    have h2 : (d.bit ++ BitVec.ofNat 7 a).getLsbD 7 = d.bit.getLsbD 0 := by
      rw [BitVec.getLsbD_append]; simp
    show Operand.auto (Direction.ofBit ((d.bit ++ BitVec.ofNat 7 a).getLsbD 7))
      ((d.bit ++ BitVec.ofNat 7 a).extractLsb' 0 7).toNat = _
    rw [h1, h2, BitVec.toNat_ofNat, Nat.mod_eq_of_lt ha]
    cases d <;> rfl
  | _ =>
    simp only [Operand.fits, decide_eq_true_eq] at h
    simp [Operand.ofBits, Operand.modeBits, Operand.fieldBits, Nat.mod_eq_of_lt h]

/-- An operand read from bits fits its field. -/
theorem Operand.fits_ofBits (m : BitVec 3) (o : BitVec 8) : (Operand.ofBits m o).fits = true := by
  have := o.isLt
  unfold Operand.ofBits
  split <;> simp [Operand.fits] <;> omega

/-- An operand read from bits has those bits. -/
theorem Operand.bits_ofBits (m : BitVec 3) (o : BitVec 8) :
    (Operand.ofBits m o).modeBits = m ∧ (Operand.ofBits m o).fieldBits = o := by
  have hm : ∀ k, m.toNat = k → m = BitVec.ofNat 3 k := fun k h => by rw [← h]; simp
  have hl := m.isLt
  unfold Operand.ofBits
  split
  case h_6 h =>
    refine ⟨(hm _ h).symm, ?_⟩
    simp only [Operand.fieldBits, BitVec.ofNat_toNat]
    apply BitVec.eq_of_getLsbD_eq
    intro i hi
    rw [BitVec.getLsbD_append]
    by_cases h7 : i < 7
    · simp [h7]
    · have : i = 7 := by omega
      subst this
      cases h : o.getLsbD 7 <;> simp [Direction.ofBit, Direction.bit]
  case h_8 h0 h1 h2 h3 h4 h5 h6 =>
    refine ⟨(hm 7 ?_).symm, by simp [Operand.fieldBits]⟩
    simp at h0 h1 h2 h3 h4 h5 h6
    omega
  all_goals rename_i h; exact ⟨(hm _ h).symm, by simp [Operand.fieldBits]⟩

end Sys2Proof
end

