-- ==== Sys2Proof/Laws/State.lean ====
section
/-! SUPPORT. One lemma per field per update of the state, and the reads of the two arrays after each update. -/

namespace Sys2Proof.Machine

/-! ### `writeReg` -/

@[simp] theorem writeReg_cfg (s : State) (a : Nat) (v : Word) : (s.writeReg a v).cfg = s.cfg := rfl
@[simp] theorem writeReg_regs (s : State) (a : Nat) (v : Word) : (s.writeReg a v).regs = s.regs.store a v := rfl
@[simp] theorem writeReg_mem (s : State) (a : Nat) (v : Word) : (s.writeReg a v).mem = s.mem := rfl
@[simp] theorem writeReg_run (s : State) (a : Nat) (v : Word) : (s.writeReg a v).run = s.run := rfl
@[simp] theorem writeReg_flt (s : State) (a : Nat) (v : Word) : (s.writeReg a v).flt = s.flt := rfl
@[simp] theorem writeReg_out (s : State) (a : Nat) (v : Word) : (s.writeReg a v).out = s.out := rfl
@[simp] theorem writeReg_input (s : State) (a : Nat) (v : Word) : (s.writeReg a v).input = s.input := rfl
@[simp] theorem writeReg_w (s : State) (a : Nat) (v : Word) : (s.writeReg a v).w = s.w := rfl
@[simp] theorem writeReg_scanWait (s : State) (a : Nat) (v : Word) : (s.writeReg a v).scanWait = s.scanWait := rfl
@[simp] theorem writeReg_readMem (s : State) (a : Nat) (v : Word) (c : Nat) : (s.writeReg a v).readMem c = s.readMem c := rfl

/-! ### `writeMem` -/

@[simp] theorem writeMem_cfg (s : State) (a : Nat) (v : Word) : (s.writeMem a v).cfg = s.cfg := rfl
@[simp] theorem writeMem_regs (s : State) (a : Nat) (v : Word) : (s.writeMem a v).regs = s.regs := rfl
@[simp] theorem writeMem_mem (s : State) (a : Nat) (v : Word) : (s.writeMem a v).mem = s.mem.store a v := rfl
@[simp] theorem writeMem_run (s : State) (a : Nat) (v : Word) : (s.writeMem a v).run = s.run := rfl
@[simp] theorem writeMem_flt (s : State) (a : Nat) (v : Word) : (s.writeMem a v).flt = s.flt := rfl
@[simp] theorem writeMem_out (s : State) (a : Nat) (v : Word) : (s.writeMem a v).out = s.out := rfl
@[simp] theorem writeMem_input (s : State) (a : Nat) (v : Word) : (s.writeMem a v).input = s.input := rfl
@[simp] theorem writeMem_w (s : State) (a : Nat) (v : Word) : (s.writeMem a v).w = s.w := rfl
@[simp] theorem writeMem_scanWait (s : State) (a : Nat) (v : Word) : (s.writeMem a v).scanWait = s.scanWait := rfl
@[simp] theorem writeMem_readReg (s : State) (a : Nat) (v : Word) (r : Nat) : (s.writeMem a v).readReg r = s.readReg r := rfl

/-! ### `takeFault` -/

@[simp] theorem takeFault_cfg (s : State) (f : FaultKind) : (takeFault f s).cfg = s.cfg := rfl
@[simp] theorem takeFault_regs (s : State) (f : FaultKind) : (takeFault f s).regs = s.regs := rfl
@[simp] theorem takeFault_mem (s : State) (f : FaultKind) : (takeFault f s).mem = s.mem := rfl
@[simp] theorem takeFault_run (s : State) (f : FaultKind) : (takeFault f s).run = .faulted := rfl
@[simp] theorem takeFault_flt (s : State) (f : FaultKind) : (takeFault f s).flt = some f := rfl
@[simp] theorem takeFault_out (s : State) (f : FaultKind) : (takeFault f s).out = s.out := rfl
@[simp] theorem takeFault_input (s : State) (f : FaultKind) : (takeFault f s).input = s.input := rfl
@[simp] theorem takeFault_w (s : State) (f : FaultKind) : (takeFault f s).w = s.w := rfl
@[simp] theorem takeFault_scanWait (s : State) (f : FaultKind) : (takeFault f s).scanWait = s.scanWait := rfl
@[simp] theorem takeFault_readReg (s : State) (f : FaultKind) (r : Nat) : (takeFault f s).readReg r = s.readReg r := rfl
@[simp] theorem takeFault_readMem (s : State) (f : FaultKind) (c : Nat) : (takeFault f s).readMem c = s.readMem c := rfl

/-! ### `halt` -/

@[simp] theorem halt_cfg (s : State) : (s.halt).cfg = s.cfg := rfl
@[simp] theorem halt_regs (s : State) : (s.halt).regs = s.regs := rfl
@[simp] theorem halt_mem (s : State) : (s.halt).mem = s.mem := rfl
@[simp] theorem halt_run (s : State) : (s.halt).run = .halted := rfl
@[simp] theorem halt_flt (s : State) : (s.halt).flt = s.flt := rfl
@[simp] theorem halt_out (s : State) : (s.halt).out = s.out := rfl
@[simp] theorem halt_input (s : State) : (s.halt).input = s.input := rfl
@[simp] theorem halt_w (s : State) : (s.halt).w = s.w := rfl
@[simp] theorem halt_scanWait (s : State) : (s.halt).scanWait = s.scanWait := rfl
@[simp] theorem halt_readReg (s : State) (r : Nat) : (s.halt).readReg r = s.readReg r := rfl
@[simp] theorem halt_readMem (s : State) (c : Nat) : (s.halt).readMem c = s.readMem c := rfl

/-! ### `emit` -/

@[simp] theorem emit_cfg (s : State) (v : Word) : (s.emit v).cfg = s.cfg := rfl
@[simp] theorem emit_regs (s : State) (v : Word) : (s.emit v).regs = s.regs := rfl
@[simp] theorem emit_mem (s : State) (v : Word) : (s.emit v).mem = s.mem := rfl
@[simp] theorem emit_run (s : State) (v : Word) : (s.emit v).run = s.run := rfl
@[simp] theorem emit_flt (s : State) (v : Word) : (s.emit v).flt = s.flt := rfl
@[simp] theorem emit_out (s : State) (v : Word) : (s.emit v).out = s.out ++ [v] := rfl
@[simp] theorem emit_input (s : State) (v : Word) : (s.emit v).input = s.input := rfl
@[simp] theorem emit_w (s : State) (v : Word) : (s.emit v).w = s.w := rfl
@[simp] theorem emit_scanWait (s : State) (v : Word) : (s.emit v).scanWait = s.scanWait := rfl
@[simp] theorem emit_readReg (s : State) (v : Word) (r : Nat) : (s.emit v).readReg r = s.readReg r := rfl
@[simp] theorem emit_readMem (s : State) (v : Word) (c : Nat) : (s.emit v).readMem c = s.readMem c := rfl

/-! ### `tookInput` -/

@[simp] theorem tookInput_cfg (s : State) (rest : List Word) : (s.tookInput rest).cfg = s.cfg := rfl
@[simp] theorem tookInput_regs (s : State) (rest : List Word) : (s.tookInput rest).regs = s.regs := rfl
@[simp] theorem tookInput_mem (s : State) (rest : List Word) : (s.tookInput rest).mem = s.mem := rfl
@[simp] theorem tookInput_run (s : State) (rest : List Word) : (s.tookInput rest).run = s.run := rfl
@[simp] theorem tookInput_flt (s : State) (rest : List Word) : (s.tookInput rest).flt = s.flt := rfl
@[simp] theorem tookInput_out (s : State) (rest : List Word) : (s.tookInput rest).out = s.out := rfl
@[simp] theorem tookInput_input (s : State) (rest : List Word) : (s.tookInput rest).input = rest := rfl
@[simp] theorem tookInput_w (s : State) (rest : List Word) : (s.tookInput rest).w = s.w := rfl
@[simp] theorem tookInput_scanWait (s : State) (rest : List Word) : (s.tookInput rest).scanWait = none := rfl
@[simp] theorem tookInput_readReg (s : State) (rest : List Word) (r : Nat) : (s.tookInput rest).readReg r = s.readReg r := rfl
@[simp] theorem tookInput_readMem (s : State) (rest : List Word) (c : Nat) : (s.tookInput rest).readMem c = s.readMem c := rfl

/-! ### `awaitInput` -/

@[simp] theorem awaitInput_cfg (s : State) (l : Loc) : (s.awaitInput l).cfg = s.cfg := rfl
@[simp] theorem awaitInput_regs (s : State) (l : Loc) : (s.awaitInput l).regs = s.regs := rfl
@[simp] theorem awaitInput_mem (s : State) (l : Loc) : (s.awaitInput l).mem = s.mem := rfl
@[simp] theorem awaitInput_run (s : State) (l : Loc) : (s.awaitInput l).run = s.run := rfl
@[simp] theorem awaitInput_flt (s : State) (l : Loc) : (s.awaitInput l).flt = s.flt := rfl
@[simp] theorem awaitInput_out (s : State) (l : Loc) : (s.awaitInput l).out = s.out := rfl
@[simp] theorem awaitInput_input (s : State) (l : Loc) : (s.awaitInput l).input = s.input := rfl
@[simp] theorem awaitInput_w (s : State) (l : Loc) : (s.awaitInput l).w = s.w := rfl
@[simp] theorem awaitInput_scanWait (s : State) (l : Loc) : (s.awaitInput l).scanWait = some l := rfl
@[simp] theorem awaitInput_readReg (s : State) (l : Loc) (r : Nat) : (s.awaitInput l).readReg r = s.readReg r := rfl
@[simp] theorem awaitInput_readMem (s : State) (l : Loc) (c : Nat) : (s.awaitInput l).readMem c = s.readMem c := rfl

/-! ### `started` -/

@[simp] theorem started_cfg (s : State) : (s.started).cfg = s.cfg := rfl
@[simp] theorem started_regs (s : State) : (s.started).regs = s.regs := rfl
@[simp] theorem started_mem (s : State) : (s.started).mem = s.mem := rfl
@[simp] theorem started_run (s : State) : (s.started).run = .running := rfl
@[simp] theorem started_flt (s : State) : (s.started).flt = s.flt := rfl
@[simp] theorem started_out (s : State) : (s.started).out = s.out := rfl
@[simp] theorem started_input (s : State) : (s.started).input = s.input := rfl
@[simp] theorem started_w (s : State) : (s.started).w = s.w := rfl
@[simp] theorem started_scanWait (s : State) : (s.started).scanWait = none := rfl
@[simp] theorem started_readReg (s : State) (r : Nat) : (s.started).readReg r = s.readReg r := rfl
@[simp] theorem started_readMem (s : State) (c : Nat) : (s.started).readMem c = s.readMem c := rfl

/-! ### `fetched` -/

@[simp] theorem fetched_cfg (s : State) (a : Nat) : (s.fetched a).cfg = s.cfg := rfl
@[simp] theorem fetched_regs (s : State) (a : Nat) : (s.fetched a).regs = (s.regs.store Reg.IR (wrap a)).store Reg.PC (wrap ((a : Int) + 1)) := rfl
@[simp] theorem fetched_mem (s : State) (a : Nat) : (s.fetched a).mem = s.mem := rfl
@[simp] theorem fetched_run (s : State) (a : Nat) : (s.fetched a).run = s.run := rfl
@[simp] theorem fetched_flt (s : State) (a : Nat) : (s.fetched a).flt = s.flt := rfl
@[simp] theorem fetched_out (s : State) (a : Nat) : (s.fetched a).out = s.out := rfl
@[simp] theorem fetched_input (s : State) (a : Nat) : (s.fetched a).input = s.input := rfl
@[simp] theorem fetched_w (s : State) (a : Nat) : (s.fetched a).w = s.readMem a := rfl
@[simp] theorem fetched_scanWait (s : State) (a : Nat) : (s.fetched a).scanWait = s.scanWait := rfl
@[simp] theorem fetched_readMem (s : State) (a : Nat) (c : Nat) : (s.fetched a).readMem c = s.readMem c := rfl

end Sys2Proof.Machine
end

