-- ==== Sys2Proof/Laws/Word.lean ====
section
/-! SUPPORT. The two readings of a pattern and the wrapping of an integer. -/

namespace Sys2Proof

theorem wrap_add (m n : Int) : wrap (m + n) = wrap m + wrap n := BitVec.ofInt_add m n

theorem wrap_sub (m n : Int) : wrap (m - n) = wrap m - wrap n := by
  rw [Int.sub_eq_add_neg, wrap_add, BitVec.sub_eq_add_neg]
  exact congrArg (wrap m + ·) (BitVec.ofInt_neg)

theorem wrap_mul (m n : Int) : wrap (m * n) = wrap m * wrap n := BitVec.ofInt_mul m n

@[simp] theorem wrap_signed (x : Word) : wrap x.signed = x := BitVec.ofInt_toInt

@[simp] theorem wrap_unsigned (x : Word) : wrap (x.unsigned : Int) = x := by
  simp [wrap]

@[simp] theorem wrap_one : wrap 1 = 1#32 := by decide

theorem signed_bounds (x : Word) : -2147483648 ≤ x.signed ∧ x.signed < 2147483648 :=
  ⟨by simpa using BitVec.le_toInt x, by simpa using BitVec.toInt_lt (x := x)⟩

/-- Wrapping an integer that fits the signed range loses nothing. -/
theorem signed_wrap {n : Int} (h₁ : -2147483648 ≤ n) (h₂ : n < 2147483648) : (wrap n).signed = n := by
  unfold wrap Word.signed
  rw [BitVec.toInt_ofInt]
  exact Int.bmod_eq_of_le (by simpa using h₁) (by simpa using h₂)

theorem wrap_signed_succ (x : Word) : wrap (x.signed + 1) = x + 1#32 := by rw [wrap_add, wrap_signed, wrap_one]

theorem wrap_signed_pred (x : Word) : wrap (x.signed - 1) = x - 1#32 := by rw [wrap_sub, wrap_signed, wrap_one]

end Sys2Proof
end

