-- ==== Sys2Proof/Laws/Storage.lean ====
section
/-! SUPPORT. The storage interface: a read after a write, and the canonical form that every write keeps. -/

namespace Sys2Proof.Machine

/-! ### Reading what was stored -/

@[simp] theorem Storage.load_nil (a : Nat) : Storage.load [] a = 0#32 := rfl

theorem Storage.load_erase_same (m : Storage) (a : Nat) : (m.erase a).load a = 0#32 := by
  induction m with
  | nil => rfl
  | cons c rest ih =>
    obtain ⟨k, v⟩ := c
    by_cases h : k = a
    · simpa [Storage.erase, h] using ih
    · simpa [Storage.erase, h, Storage.load] using ih

theorem Storage.load_erase_ne (m : Storage) {a b : Nat} (h : a ≠ b) : (m.erase a).load b = m.load b := by
  induction m with
  | nil => rfl
  | cons c rest ih =>
    obtain ⟨k, v⟩ := c
    by_cases hk : k = a
    · subst hk
      simpa [Storage.erase, Storage.load, h] using ih
    · by_cases hb : k = b
      · simp [Storage.erase, Storage.load, hb, Ne.symm h]
      · simpa [Storage.erase, Storage.load, hk, hb] using ih

theorem Storage.load_insert_same (m : Storage) (a : Nat) (v : Word) (h : ∀ c ∈ m, c.1 ≠ a) :
    (m.insert a v).load a = v := by
  induction m with
  | nil => simp [Storage.insert, Storage.load]
  | cons c rest ih =>
    obtain ⟨k, w⟩ := c
    have hk : k ≠ a := h (k, w) (by simp)
    by_cases hlt : a < k
    · simp [Storage.insert, Storage.load, hlt]
    · simpa [Storage.insert, Storage.load, hlt, hk] using ih fun c hc => h c (by simp [hc])

theorem Storage.load_insert_ne (m : Storage) {a b : Nat} (v : Word) (h : a ≠ b) :
    (m.insert a v).load b = m.load b := by
  induction m with
  | nil => simp [Storage.insert, Storage.load, h]
  | cons c rest ih =>
    obtain ⟨k, w⟩ := c
    by_cases hlt : a < k
    · simp [Storage.insert, Storage.load, hlt, h]
    · simp [Storage.insert, Storage.load, hlt, ih]

theorem Storage.mem_erase {m : Storage} {a : Nat} {c : Nat × Word} (h : c ∈ m.erase a) : c ∈ m ∧ c.1 ≠ a := by
  simpa [Storage.erase] using h

/-- A read after a write: the value written there, and what was there before everywhere else. -/
theorem Storage.load_store (m : Storage) (a b : Nat) (v : Word) :
    (m.store a v).load b = if a = b then v else m.load b := by
  unfold Storage.store
  by_cases hv : v = 0#32 <;> by_cases hab : a = b
  · subst hab
    simp [hv, Storage.load_erase_same]
  · simp [hv, hab, Storage.load_erase_ne m hab]
  · subst hab
    simp [hv, Storage.load_insert_same _ a v fun c hc => (Storage.mem_erase hc).2]
  · simp [hv, hab, Storage.load_insert_ne _ v hab, Storage.load_erase_ne m hab]

@[simp] theorem Storage.load_store_same (m : Storage) (a : Nat) (v : Word) : (m.store a v).load a = v := by
  simp [Storage.load_store]

theorem Storage.load_store_ne (m : Storage) {a b : Nat} (v : Word) (h : a ≠ b) :
    (m.store a v).load b = m.load b := by
  simp [Storage.load_store, h]

/-! ### Registers and memory after a write -/

theorem writeReg_readReg (s : State) (a b : Nat) (v : Word) :
    (s.writeReg a v).readReg b = if a = b then v else s.readReg b := Storage.load_store s.regs a b v

@[simp] theorem writeReg_readReg_same (s : State) (a : Nat) (v : Word) : (s.writeReg a v).readReg a = v :=
  Storage.load_store_same s.regs a v

theorem writeReg_readReg_ne (s : State) {a b : Nat} (v : Word) (h : a ≠ b) :
    (s.writeReg a v).readReg b = s.readReg b := Storage.load_store_ne s.regs v h

theorem writeMem_readMem (s : State) (a b : Nat) (v : Word) :
    (s.writeMem a v).readMem b = if a = b then v else s.readMem b := Storage.load_store s.mem a b v

@[simp] theorem writeMem_readMem_same (s : State) (a : Nat) (v : Word) : (s.writeMem a v).readMem a = v :=
  Storage.load_store_same s.mem a v

theorem writeMem_readMem_ne (s : State) {a b : Nat} (v : Word) (h : a ≠ b) :
    (s.writeMem a v).readMem b = s.readMem b := Storage.load_store_ne s.mem v h

theorem fetched_readReg (s : State) (a b : Nat) :
    (s.fetched a).readReg b =
      if Reg.PC = b then wrap ((a : Int) + 1) else if Reg.IR = b then wrap a else s.readReg b := by
  unfold State.fetched
  rw [writeReg_readReg, writeReg_readReg]
  rfl

/-! ### The canonical form -/

theorem Storage.canonical_iff (size : Nat) (m : Storage) :
    m.canonical size = true ↔ m.rising = true ∧ ∀ c ∈ m, c.1 < size ∧ c.2 ≠ 0#32 := by
  simp [Storage.canonical]

theorem Storage.rising_cons (a : Nat) (v : Word) (rest : Storage) :
    Storage.rising ((a, v) :: rest) = true ↔ (∀ c ∈ rest, a < c.1) ∧ rest.rising = true := by
  simp [Storage.rising]

theorem Storage.rising_erase {m : Storage} (a : Nat) (h : m.rising = true) : (m.erase a).rising = true := by
  induction m with
  | nil => rfl
  | cons c rest ih =>
    obtain ⟨k, v⟩ := c
    rw [Storage.rising_cons] at h
    by_cases hk : k = a
    · simpa [Storage.erase, hk] using ih h.2
    · have he : Storage.erase ((k, v) :: rest) a = (k, v) :: Storage.erase rest a := by simp [Storage.erase, hk]
      rw [he, Storage.rising_cons]
      exact ⟨fun c hc => h.1 c (Storage.mem_erase hc).1, ih h.2⟩

theorem Storage.mem_insert {m : Storage} {a : Nat} {v : Word} {c : Nat × Word} (h : c ∈ m.insert a v) :
    c = (a, v) ∨ c ∈ m := by
  induction m with
  | nil => simpa [Storage.insert] using h
  | cons d rest ih =>
    obtain ⟨k, w⟩ := d
    by_cases hlt : a < k
    · simpa [Storage.insert, hlt] using h
    · simp only [Storage.insert, hlt, if_false, List.mem_cons] at h
      rcases h with h | h
      · simp [h]
      · rcases ih h with h | h <;> simp [h]

theorem Storage.rising_insert {m : Storage} {a : Nat} (v : Word) (h : m.rising = true) (hne : ∀ c ∈ m, c.1 ≠ a) :
    (m.insert a v).rising = true := by
  induction m with
  | nil => simp [Storage.insert, Storage.rising]
  | cons d rest ih =>
    obtain ⟨k, w⟩ := d
    rw [Storage.rising_cons] at h
    have hk : k ≠ a := hne (k, w) (by simp)
    by_cases hlt : a < k
    · simp only [Storage.insert, hlt, if_true]
      rw [Storage.rising_cons, Storage.rising_cons]
      refine ⟨fun c hc => ?_, h⟩
      rcases List.mem_cons.mp hc with rfl | hc
      · exact hlt
      · exact Nat.lt_trans hlt (h.1 c hc)
    · simp only [Storage.insert, hlt, if_false]
      rw [Storage.rising_cons]
      refine ⟨fun c hc => ?_, ih h.2 fun c hc => hne c (by simp [hc])⟩
      rcases Storage.mem_insert hc with rfl | hc
      · show k < a
        omega
      · exact h.1 c hc

/-- Every write inside the array keeps the canonical form. -/
theorem Storage.canonical_store {size : Nat} {m : Storage} {a : Nat} (v : Word)
    (h : m.canonical size = true) (ha : a < size) : (m.store a v).canonical size = true := by
  rw [Storage.canonical_iff] at h ⊢
  have he : (m.erase a).rising = true := Storage.rising_erase a h.1
  unfold Storage.store
  by_cases hv : v = 0#32
  · simp only [hv, if_true]
    exact ⟨he, fun c hc => h.2 c (Storage.mem_erase hc).1⟩
  · simp only [hv, if_false]
    refine ⟨Storage.rising_insert v he fun c hc => (Storage.mem_erase hc).2, fun c hc => ?_⟩
    rcases Storage.mem_insert hc with rfl | hc
    · exact ⟨ha, hv⟩
    · exact h.2 c (Storage.mem_erase hc).1

/-- The two operations that write the arrays keep their canonical form. -/
theorem writeReg_canonical {s : State} {a : Nat} (v : Word) (h : s.regs.canonical s.cfg.nreg = true)
    (ha : a < s.cfg.nreg) : (s.writeReg a v).regs.canonical s.cfg.nreg = true := Storage.canonical_store v h ha

theorem writeMem_canonical {s : State} {a : Nat} (v : Word) (h : s.mem.canonical s.cfg.memSize = true)
    (ha : a < s.cfg.memSize) : (s.writeMem a v).mem.canonical s.cfg.memSize = true := Storage.canonical_store v h ha

theorem reset_memory_canonical : State.reset.mem.canonical State.reset.cfg.memSize = true := rfl

theorem reset_registers_canonical : State.reset.regs.canonical State.reset.cfg.nreg = true := by decide

end Sys2Proof.Machine
end

