-- ==== Sys2Proof/Laws/Ops.lean ====
section
/-! SUPPORT. What each shared operation can do, said once. -/

namespace Sys2Proof.Machine

/-! ### Sequencing -/

@[simp] theorem Res.andThen_ok {α β : Type} (a : α) (s : State) (k : α → State → Res β) :
    (Res.ok a s).andThen k = k a s := rfl

@[simp] theorem Res.andThen_raised {α β : Type} (f : FaultKind) (s : State) (k : α → State → Res β) :
    (Res.raised f s : Res α).andThen k = .raised f s := rfl

theorem Res.andThen_eq_ok {α β : Type} {r : Res α} {k : α → State → Res β} {b : β} {t : State}
    (h : r.andThen k = .ok b t) : ∃ a s, r = .ok a s ∧ k a s = .ok b t := by
  cases r with
  | ok a s => exact ⟨a, s, rfl, h⟩
  | raised f s => cases h

theorem Res.andThen_eq_raised {α β : Type} {r : Res α} {k : α → State → Res β} {f : FaultKind} {t : State}
    (h : r.andThen k = .raised f t) : r = .raised f t ∨ ∃ a s, r = .ok a s ∧ k a s = .raised f t := by
  cases r with
  | ok a s => exact .inr ⟨a, s, rfl, h⟩
  | raised g s => cases h; exact .inl rfl

@[simp] theorem finish_ok (u : Unit) (s : State) : finish (.ok u s) = .next s := rfl

@[simp] theorem finish_raised (f : FaultKind) (s : State) : finish (.raised f s) = .next (takeFault f s) := rfl

/-- The end of a step always answers a next state: the one reached, or the one the fault was raised in with the fault taken. -/
theorem finish_cases {r : Res Unit} {t : State} (h : finish r = .next t) :
    r = .ok () t ∨ ∃ f s, r = .raised f s ∧ t = takeFault f s := by
  cases r with
  | ok u s => cases u; cases h; exact .inl rfl
  | raised f s => cases h; exact .inr ⟨f, s, rfl, rfl⟩

theorem finish_next (r : Res Unit) : ∃ t, finish r = .next t := by
  cases r with
  | ok u s => exact ⟨s, rfl⟩
  | raised f s => exact ⟨takeFault f s, rfl⟩

/-! ### The checks -/

/-- What an admissible configuration gives (00_scope.md R6). -/
theorem config_bounds {c : Config} (h : c.wf = true) :
    32 ≤ c.nreg ∧ c.nreg ≤ 128 ∧ 1 ≤ c.memSize ∧ c.memSize ≤ 2147483648 ∧
    (c.stackBase : Int) ≤ c.stackLimit + 1 ∧ c.stackLimit ≤ (c.memSize : Int) - 1 := by
  simpa [Config.wf, and_assoc] using h

theorem checkReg_of_lt {a : Nat} {s : State} (h : a < s.cfg.nreg) : checkReg a s = .ok a s := by
  simp [checkReg, h]

theorem checkReg_of_not_lt {a : Nat} {s : State} (h : ¬ a < s.cfg.nreg) :
    checkReg a s = .raised .invalidAddress s := by
  simp [checkReg, h]

theorem checkReg_cases (a : Nat) (s : State) :
    (a < s.cfg.nreg ∧ checkReg a s = .ok a s) ∨ (¬ a < s.cfg.nreg ∧ checkReg a s = .raised .invalidAddress s) := by
  by_cases h : a < s.cfg.nreg
  · exact .inl ⟨h, checkReg_of_lt h⟩
  · exact .inr ⟨h, checkReg_of_not_lt h⟩

theorem InMem.toNat_lt {c : Config} {a : Int} (h : InMem c a) : a.toNat < c.memSize := by
  unfold InMem at h
  omega

theorem checkMem_of_inMem {a : Int} {s : State} (h : InMem s.cfg a) : checkMem a s = .ok a.toNat s := by
  unfold InMem at h
  simp [checkMem, h]

theorem checkMem_of_not_inMem {a : Int} {s : State} (h : ¬ InMem s.cfg a) :
    checkMem a s = .raised .invalidAddress s := by
  unfold InMem at h
  simp only [checkMem, h, if_false]

theorem checkMem_cases (a : Int) (s : State) :
    (InMem s.cfg a ∧ checkMem a s = .ok a.toNat s) ∨
    (¬ InMem s.cfg a ∧ checkMem a s = .raised .invalidAddress s) := by
  by_cases h : InMem s.cfg a
  · exact .inl ⟨h, checkMem_of_inMem h⟩
  · exact .inr ⟨h, checkMem_of_not_inMem h⟩

/-! ### The stack sub-operations -/

/-- All that `StackPush` can do. -/
theorem stackPush_cases (s : State) :
    ((s.readReg Reg.TSP).signed + 1 > s.cfg.stackLimit ∧ stackPush s = .raised .stackOverflow s) ∨
    ((s.readReg Reg.TSP).signed + 1 ≤ s.cfg.stackLimit ∧ ¬ InMem s.cfg ((s.readReg Reg.TSP).signed + 1) ∧
      stackPush s = .raised .invalidAddress s) ∨
    ((s.readReg Reg.TSP).signed + 1 ≤ s.cfg.stackLimit ∧ InMem s.cfg ((s.readReg Reg.TSP).signed + 1) ∧
      stackPush s = .ok (.mem ((s.readReg Reg.TSP).signed + 1).toNat)
        (s.writeReg Reg.TSP (wrap ((s.readReg Reg.TSP).signed + 1)))) := by
  unfold stackPush
  by_cases h : (s.readReg Reg.TSP).signed + 1 > s.cfg.stackLimit
  · exact .inl ⟨h, if_pos h⟩
  · rw [if_neg h]
    rcases checkMem_cases ((s.readReg Reg.TSP).signed + 1) s with ⟨hm, he⟩ | ⟨hm, he⟩
    · exact .inr (.inr ⟨Int.not_lt.mp h, hm, by rw [he]; rfl⟩)
    · exact .inr (.inl ⟨Int.not_lt.mp h, hm, by rw [he]; rfl⟩)

/-- All that `StackPop` can do. -/
theorem stackPop_cases (s : State) :
    ((s.readReg Reg.TSP).signed < (s.readReg Reg.SPR).signed ∧ stackPop s = .raised .stackUnderflow s) ∨
    ((s.readReg Reg.SPR).signed ≤ (s.readReg Reg.TSP).signed ∧ ¬ InMem s.cfg (s.readReg Reg.TSP).signed ∧
      stackPop s = .raised .invalidAddress s) ∨
    ((s.readReg Reg.SPR).signed ≤ (s.readReg Reg.TSP).signed ∧ InMem s.cfg (s.readReg Reg.TSP).signed ∧
      stackPop s = .ok (.mem (s.readReg Reg.TSP).signed.toNat)
        (s.writeReg Reg.TSP (wrap ((s.readReg Reg.TSP).signed - 1)))) := by
  unfold stackPop
  by_cases h : (s.readReg Reg.TSP).signed < (s.readReg Reg.SPR).signed
  · exact .inl ⟨h, if_pos h⟩
  · rw [if_neg h]
    rcases checkMem_cases (s.readReg Reg.TSP).signed s with ⟨hm, he⟩ | ⟨hm, he⟩
    · exact .inr (.inr ⟨Int.not_lt.mp h, hm, by rw [he]; rfl⟩)
    · exact .inr (.inl ⟨Int.not_lt.mp h, hm, by rw [he]; rfl⟩)

/-- All that `StackTop` can do. -/
theorem stackTop_cases (s : State) :
    ((s.readReg Reg.TSP).signed < (s.readReg Reg.SPR).signed ∧ stackTop s = .raised .stackUnderflow s) ∨
    ((s.readReg Reg.SPR).signed ≤ (s.readReg Reg.TSP).signed ∧ ¬ InMem s.cfg (s.readReg Reg.TSP).signed ∧
      stackTop s = .raised .invalidAddress s) ∨
    ((s.readReg Reg.SPR).signed ≤ (s.readReg Reg.TSP).signed ∧ InMem s.cfg (s.readReg Reg.TSP).signed ∧
      stackTop s = .ok (.mem (s.readReg Reg.TSP).signed.toNat) s) := by
  unfold stackTop
  by_cases h : (s.readReg Reg.TSP).signed < (s.readReg Reg.SPR).signed
  · exact .inl ⟨h, if_pos h⟩
  · rw [if_neg h]
    rcases checkMem_cases (s.readReg Reg.TSP).signed s with ⟨hm, he⟩ | ⟨hm, he⟩
    · exact .inr (.inr ⟨Int.not_lt.mp h, hm, by rw [he]; rfl⟩)
    · exact .inr (.inl ⟨Int.not_lt.mp h, hm, by rw [he]; rfl⟩)

/-! ### Using a location -/

@[simp] theorem value_reg (a : Nat) (s : State) : value (.reg a) s = s.readReg a := rfl
@[simp] theorem value_mem (a : Nat) (s : State) : value (.mem a) s = s.readMem a := rfl
@[simp] theorem value_imm (v : Word) (s : State) : value (.imm v) s = v := rfl
@[simp] theorem target_reg (a : Nat) (s : State) : target (.reg a) s = s.readReg a := rfl
@[simp] theorem target_mem (a : Nat) (s : State) : target (.mem a) s = wrap a := rfl
@[simp] theorem target_imm (v : Word) (s : State) : target (.imm v) s = v := rfl
@[simp] theorem write_reg (a : Nat) (v : Word) (s : State) : write (.reg a) v s = .ok () (s.writeReg a v) := rfl
@[simp] theorem write_mem (a : Nat) (v : Word) (s : State) : write (.mem a) v s = .ok () (s.writeMem a v) := rfl
@[simp] theorem write_imm (c v : Word) (s : State) : write (.imm c) v s = .raised .immediateNotWritable s := rfl

/-- All that a write to a location can do. -/
theorem write_cases (l : Loc) (v : Word) (s : State) :
    (∃ a, l = .reg a ∧ write l v s = .ok () (s.writeReg a v)) ∨
    (∃ a, l = .mem a ∧ write l v s = .ok () (s.writeMem a v)) ∨
    (∃ c, l = .imm c ∧ write l v s = .raised .immediateNotWritable s) := by
  cases l with
  | reg a => exact .inl ⟨a, rfl, rfl⟩
  | mem a => exact .inr (.inl ⟨a, rfl, rfl⟩)
  | imm c => exact .inr (.inr ⟨c, rfl, rfl⟩)

/-- All that a SCAN with its destination resolved can do: wait, or take the next value and write it. -/
theorem scanInto_cases (l : Loc) (s : State) :
    (s.input = [] ∧ scanInto l s = .ok () (s.awaitInput l)) ∨
    (∃ v rest, s.input = v :: rest ∧ scanInto l s = write l v (s.tookInput rest)) := by
  unfold scanInto
  cases h : s.input with
  | nil => exact .inl ⟨rfl, rfl⟩
  | cons v rest => exact .inr ⟨v, rest, rfl, rfl⟩

/-- All that the computation of an arithmetic instruction can do. -/
theorem compute_cases (r : Except FaultKind Int) (s : State) :
    (∃ n, r = .ok n ∧ compute r s = .ok n s) ∨ (∃ f, r = .error f ∧ compute r s = .raised f s) := by
  cases r with
  | ok n => exact .inl ⟨n, rfl, rfl⟩
  | error f => exact .inr ⟨f, rfl, rfl⟩

/-! ### FETCH -/

/-- All that FETCH can do. -/
theorem fetch_cases (s : State) :
    (InMem s.cfg (s.readReg Reg.PC).signed ∧ fetch s = .ok () (s.fetched (s.readReg Reg.PC).signed.toNat)) ∨
    (¬ InMem s.cfg (s.readReg Reg.PC).signed ∧ fetch s = .raised .invalidAddress s) := by
  unfold fetch
  rcases checkMem_cases (s.readReg Reg.PC).signed s with ⟨hm, he⟩ | ⟨hm, he⟩
  · exact .inl ⟨hm, by rw [he]; rfl⟩
  · exact .inr ⟨hm, by rw [he]; rfl⟩

end Sys2Proof.Machine
end

