-- ==== Sys2Proof/Laws/Resolve.lean ====
section
/-! SUPPORT. What the resolver can do, said once. -/

namespace Sys2Proof.Machine

/-- All that `Resolve` can do: raise InvalidAddress with nothing changed; or answer a location inside its array, the state
unchanged but for the register of mode 101, which it moves. -/
theorem resolve_cases (o : Operand) (s : State) :
    resolve o s = .raised .invalidAddress s ∨
    (∃ l, resolve o s = .ok l s ∧ l.inRange s.cfg = true ∧ autoReg o = none) ∨
    (∃ a v w, resolve o s = .ok (.imm v) (s.writeReg a w) ∧ a < s.cfg.nreg ∧ autoReg o = some a) := by
  have inM : ∀ {a : Int}, InMem s.cfg a → (Loc.mem a.toNat).inRange s.cfg = true := fun h => by
    simpa [Loc.inRange] using h.toNat_lt
  cases o with
  | reg a =>
    rcases checkReg_cases a s with ⟨h, he⟩ | ⟨h, he⟩
    · exact .inr (.inl ⟨.reg a, by simp [resolve, resolveReg, he], by simp [Loc.inRange, h], rfl⟩)
    · exact .inl (by simp [resolve, resolveReg, he])
  | regInd a =>
    rcases checkReg_cases a s with ⟨h, he⟩ | ⟨h, he⟩
    · rcases checkMem_cases (s.readReg a).signed s with ⟨hm, hc⟩ | ⟨hm, hc⟩
      · exact .inr (.inl ⟨_, by simp only [resolve, resolveRegInd, he, hc, Res.andThen_ok], inM hm, rfl⟩)
      · exact .inl (by simp only [resolve, resolveRegInd, he, hc, Res.andThen_ok, Res.andThen_raised])
    · exact .inl (by simp only [resolve, resolveRegInd, he, Res.andThen_raised])
  | imm v => exact .inr (.inl ⟨_, rfl, rfl, rfl⟩)
  | ind a =>
    rcases checkMem_cases a s with ⟨h, he⟩ | ⟨h, he⟩
    · rcases checkMem_cases (s.readMem (a : Int).toNat).signed s with ⟨hm, hc⟩ | ⟨hm, hc⟩
      · exact .inr (.inl ⟨_, by simp only [resolve, resolveInd, he, hc, Res.andThen_ok], inM hm, rfl⟩)
      · exact .inl (by simp only [resolve, resolveInd, he, hc, Res.andThen_ok, Res.andThen_raised])
    · exact .inl (by simp only [resolve, resolveInd, he, Res.andThen_raised])
  | idx a =>
    rcases checkReg_cases a s with ⟨h, he⟩ | ⟨h, he⟩
    · rcases checkMem_cases ((s.readReg a).signed + s.cfg.disp) s with ⟨hm, hc⟩ | ⟨hm, hc⟩
      · exact .inr (.inl ⟨_, by simp only [resolve, resolveIdx, he, hc, Res.andThen_ok], inM hm, rfl⟩)
      · exact .inl (by simp only [resolve, resolveIdx, he, hc, Res.andThen_ok, Res.andThen_raised])
    · exact .inl (by simp only [resolve, resolveIdx, he, Res.andThen_raised])
  | auto d a =>
    rcases checkReg_cases a s with ⟨h, he⟩ | ⟨h, he⟩
    · cases d
      · refine .inr (.inr ⟨a, s.readReg a, wrap (((s.readReg a).unsigned : Int) + 1), ?_, h, rfl⟩)
        simp only [resolve, resolveAuto, he, Res.andThen_ok]
      · refine .inr (.inr ⟨a, wrap (((s.readReg a).unsigned : Int) - 1),
          wrap (((s.readReg a).unsigned : Int) - 1), ?_, h, rfl⟩)
        simp only [resolve, resolveAuto, he, Res.andThen_ok]
    · exact .inl (by simp only [resolve, resolveAuto, he, Res.andThen_raised])
  | direct a =>
    rcases checkMem_cases a s with ⟨h, he⟩ | ⟨h, he⟩
    · exact .inr (.inl ⟨_, by simp only [resolve, resolveDirect, he, Res.andThen_ok], inM h, rfl⟩)
    · exact .inl (by simp only [resolve, resolveDirect, he, Res.andThen_raised])
  | stack o => exact .inl rfl

end Sys2Proof.Machine
end

