-- ==== Sys2Proof/Laws/Exec.lean ====
section
/-! SUPPORT. Peeling a meaning: each shared operation at the head of a meaning that answered a next state, said once. A proof
about an instruction takes its meaning apart with these, one operation at a time, in the order of
41_execution_engine.md R145. -/

namespace Sys2Proof.Machine

/-- A meaning that begins by resolving a field: the field faults and nothing else happens, or the meaning goes on in the state
after it. -/
theorem finish_resolve {f : Operand} {s t : State} {k : Loc → State → Res Unit}
    (h : finish ((resolve f s).andThen k) = .next t) :
    (resolve f s = .raised .invalidAddress s ∧ t = takeFault .invalidAddress s) ∨
    ∃ l s1, resolve f s = .ok l s1 ∧ finish (k l s1) = .next t := by
  rcases resolve_cases f s with he | ⟨l, he, -, -⟩ | ⟨a, v, w, he, -, -⟩
  · rw [he] at h
    cases h
    exact .inl ⟨he, rfl⟩
  · rw [he] at h
    exact .inr ⟨l, s, he, h⟩
  · rw [he] at h
    exact .inr ⟨_, _, he, h⟩

/-- A meaning that goes on with a push: StackOverflow or InvalidAddress with nothing changed, or it goes on with TSP moved. -/
theorem finish_stackPush {s t : State} {k : Loc → State → Res Unit}
    (h : finish ((stackPush s).andThen k) = .next t) :
    (∃ f ∈ [FaultKind.stackOverflow, .invalidAddress], t = takeFault f s) ∨
    ((s.readReg Reg.TSP).signed + 1 ≤ s.cfg.stackLimit ∧ InMem s.cfg ((s.readReg Reg.TSP).signed + 1) ∧
      finish (k (.mem ((s.readReg Reg.TSP).signed + 1).toNat)
        (s.writeReg Reg.TSP (wrap ((s.readReg Reg.TSP).signed + 1)))) = .next t) := by
  rcases stackPush_cases s with ⟨-, he⟩ | ⟨-, -, he⟩ | ⟨hl, hm, he⟩
  · rw [he] at h
    cases h
    exact .inl ⟨_, by simp, rfl⟩
  · rw [he] at h
    cases h
    exact .inl ⟨_, by simp, rfl⟩
  · rw [he] at h
    exact .inr ⟨hl, hm, h⟩

/-- A meaning that goes on with a pop: StackUnderflow or InvalidAddress with nothing changed, or it goes on with TSP moved. -/
theorem finish_stackPop {s t : State} {k : Loc → State → Res Unit}
    (h : finish ((stackPop s).andThen k) = .next t) :
    (∃ f ∈ [FaultKind.stackUnderflow, .invalidAddress], t = takeFault f s) ∨
    ((s.readReg Reg.SPR).signed ≤ (s.readReg Reg.TSP).signed ∧ InMem s.cfg (s.readReg Reg.TSP).signed ∧
      finish (k (.mem (s.readReg Reg.TSP).signed.toNat)
        (s.writeReg Reg.TSP (wrap ((s.readReg Reg.TSP).signed - 1)))) = .next t) := by
  rcases stackPop_cases s with ⟨-, he⟩ | ⟨-, -, he⟩ | ⟨hl, hm, he⟩
  · rw [he] at h
    cases h
    exact .inl ⟨_, by simp, rfl⟩
  · rw [he] at h
    cases h
    exact .inl ⟨_, by simp, rfl⟩
  · rw [he] at h
    exact .inr ⟨hl, hm, h⟩

/-- A meaning that goes on with a look at the top: StackUnderflow or InvalidAddress, or it goes on with nothing changed. -/
theorem finish_stackTop {s t : State} {k : Loc → State → Res Unit}
    (h : finish ((stackTop s).andThen k) = .next t) :
    (∃ f ∈ [FaultKind.stackUnderflow, .invalidAddress], t = takeFault f s) ∨
    ((s.readReg Reg.SPR).signed ≤ (s.readReg Reg.TSP).signed ∧ InMem s.cfg (s.readReg Reg.TSP).signed ∧
      finish (k (.mem (s.readReg Reg.TSP).signed.toNat) s) = .next t) := by
  rcases stackTop_cases s with ⟨-, he⟩ | ⟨-, -, he⟩ | ⟨hl, hm, he⟩
  · rw [he] at h
    cases h
    exact .inl ⟨_, by simp, rfl⟩
  · rw [he] at h
    cases h
    exact .inl ⟨_, by simp, rfl⟩
  · rw [he] at h
    exact .inr ⟨hl, hm, h⟩

/-- A meaning that goes on with a computation: its fault with nothing changed, or it goes on with the result. -/
theorem finish_compute {r : Except FaultKind Int} {s t : State} {k : Int → State → Res Unit}
    (h : finish ((compute r s).andThen k) = .next t) :
    (∃ f, r = .error f ∧ t = takeFault f s) ∨ ∃ n, r = .ok n ∧ finish (k n s) = .next t := by
  cases r with
  | ok n => exact .inr ⟨n, rfl, h⟩
  | error f => cases h; exact .inl ⟨f, rfl, rfl⟩

/-- A meaning that ends with a write. -/
theorem finish_write {l : Loc} {v : Word} {s t : State} (h : finish (write l v s) = .next t) :
    (∃ a, l = .reg a ∧ t = s.writeReg a v) ∨ (∃ a, l = .mem a ∧ t = s.writeMem a v) ∨
    (∃ c, l = .imm c ∧ t = takeFault .immediateNotWritable s) := by
  cases l with
  | reg a => cases h; exact .inl ⟨a, rfl, rfl⟩
  | mem a => cases h; exact .inr (.inl ⟨a, rfl, rfl⟩)
  | imm c => cases h; exact .inr (.inr ⟨c, rfl, rfl⟩)

/-- A meaning, or a waiting step, that ends in SCAN's use of its location. -/
theorem finish_scanInto {l : Loc} {s t : State} (h : finish (scanInto l s) = .next t) :
    (s.input = [] ∧ t = s.awaitInput l) ∨
    ∃ v rest, s.input = v :: rest ∧ finish (write l v (s.tookInput rest)) = .next t := by
  rcases scanInto_cases l s with ⟨hi, he⟩ | ⟨v, rest, hi, he⟩
  · rw [he] at h
    cases h
    exact .inl ⟨hi, rfl⟩
  · rw [he] at h
    exact .inr ⟨v, rest, hi, h⟩

/-! ### The shared forms with their fields resolved -/

theorem condJump_resolved {cond : Int → Bool} {f1 f2 : Operand} {s s1 s2 : State} {l1 l2 : Loc}
    (h1 : resolve f1 s = .ok l1 s1) (h2 : resolve f2 s1 = .ok l2 s2) :
    condJump cond f1 f2 s =
      .next (if cond (value l1 s2).signed then s2.writeReg Reg.PC (target l2 s2) else s2) := by
  rw [condJump, h1, Res.andThen_ok, h2, Res.andThen_ok, finish_ok]

theorem arith_resolved {op : ArithOp} {f1 f2 : Operand} {s s1 s2 : State} {l1 l2 : Loc}
    (h1 : resolve f1 s = .ok l1 s1) (h2 : resolve f2 s1 = .ok l2 s2) :
    arith op f1 f2 s = finish ((compute (op (value l1 s2).signed (value l2 s2).signed) s2).andThen
      fun r s => write l1 (wrap r) s) := by
  rw [arith, h1, Res.andThen_ok, h2, Res.andThen_ok]

/-! ### The step -/

/-- All that a step can do. -/
theorem step_cases {s t : State} (h : step s = .next t) :
    s.cfg.wf = true ∧
    ((s.run ≠ .running ∧ t = s) ∨
     (s.run = .running ∧ ∃ l, s.scanWait = some l ∧ finish (scanInto l s) = .next t) ∨
     (s.run = .running ∧ s.scanWait = none ∧ ¬ InMem s.cfg (s.readReg Reg.PC).signed ∧
       t = takeFault .invalidAddress s) ∨
     (s.run = .running ∧ s.scanWait = none ∧ InMem s.cfg (s.readReg Reg.PC).signed ∧
       decodeAndRun (s.fetched (s.readReg Reg.PC).signed.toNat) = .next t)) := by
  unfold step at h
  by_cases hw : s.cfg.wf
  · rw [if_pos hw] at h
    refine ⟨hw, ?_⟩
    cases hr : s.run with
    | idle => rw [hr] at h; cases h; exact .inl ⟨by simp, rfl⟩
    | halted => rw [hr] at h; cases h; exact .inl ⟨by simp, rfl⟩
    | faulted => rw [hr] at h; cases h; exact .inl ⟨by simp, rfl⟩
    | running =>
      rw [hr] at h
      cases hs : s.scanWait with
      | some l => rw [hs] at h; exact .inr (.inl ⟨rfl, l, rfl, h⟩)
      | none =>
        rw [hs] at h
        rcases fetch_cases s with ⟨hm, he⟩ | ⟨hm, he⟩
        · simp only [fetchAndRun, he] at h
          exact .inr (.inr (.inr ⟨rfl, rfl, hm, h⟩))
        · simp only [fetchAndRun, he, finish_raised] at h
          cases h
          exact .inr (.inr (.inl ⟨rfl, rfl, hm, rfl⟩))
  · rw [if_neg hw] at h
    cases h

/-- All that DECODE and DISPATCH of the latched word can do. -/
theorem decodeAndRun_cases {s t : State} (h : decodeAndRun s = .next t) :
    (∃ i, decode s.w = .ok i ∧ exec i s = .next t) ∨
    (∃ e, decode s.w = .error e ∧ t = takeFault .unknownOpcode s) := by
  unfold decodeAndRun at h
  cases hd : decode s.w with
  | ok i => rw [hd] at h; exact .inl ⟨i, rfl, h⟩
  | error e => rw [hd] at h; cases h; exact .inr ⟨e, rfl, rfl⟩

/-- A running core that waits for nothing, its PC inside memory: the step is DECODE and DISPATCH of the word at PC, in the state
after FETCH. -/
theorem step_fetches {s : State} (hw : s.cfg.wf = true) (hr : s.run = .running) (hs : s.scanWait = none)
    (hm : InMem s.cfg (s.readReg Reg.PC).signed) :
    step s = decodeAndRun (s.fetched (s.readReg Reg.PC).signed.toNat) := by
  rcases fetch_cases s with ⟨-, he⟩ | ⟨hn, -⟩
  · simp only [step, hw, hr, hs, if_true, fetchAndRun, he]
  · exact absurd hm hn

end Sys2Proof.Machine
end

