-- ==== Sys2Proof/Laws/PerInstr.lean ====
section
/-! SUPPORT. Statements about every instruction as syntax, one lemma per constructor. -/

namespace Sys2Proof.Laws.EncodesItsOpcode

open Sys2Proof

/-- The word of an instruction carries the class and category bits of its row (30_encoding.md R72, R73, R80), whatever its
operands; the opcode map reads the row back from them. -/
def Statement (i : Instr) : Prop :=
  classBits (encode i) = i.opcode.cls.code ∧ categoryBits (encode i) = i.opcode.category ∧
  Opcode.lookup (classBits (encode i)) (categoryBits (encode i)) = some i.opcode

/-- The three facts, from the parts the word is made of. -/
theorem of_parts (i : Instr) : Statement i := by
  obtain ⟨hc, hk, -⟩ := fields_of_parts i.opcode.cls.code i.opcode.category i.f1.modeBits i.f1.fieldBits
    i.f2.modeBits i.f2.fieldBits
  exact ⟨hc, hk, by rw [show classBits (encode i) = _ from hc, show categoryBits (encode i) = _ from hk,
    lookup_code]⟩

theorem prnt (f1 f2 : Operand) : Statement (.prnt f1 f2) := of_parts _
theorem eop (f1 f2 : Operand) : Statement (.eop f1 f2) := of_parts _
theorem mov (f1 f2 : Operand) : Statement (.mov f1 f2) := of_parts _
theorem push (f1 f2 : Operand) : Statement (.push f1 f2) := of_parts _
theorem pop (f1 f2 : Operand) : Statement (.pop f1 f2) := of_parts _
theorem top (f1 f2 : Operand) : Statement (.top f1 f2) := of_parts _
theorem call (f1 f2 : Operand) : Statement (.call f1 f2) := of_parts _
theorem ret (f1 f2 : Operand) : Statement (.ret f1 f2) := of_parts _
theorem scan (f1 f2 : Operand) : Statement (.scan f1 f2) := of_parts _
theorem jeq (f1 f2 : Operand) : Statement (.jeq f1 f2) := of_parts _
theorem jne (f1 f2 : Operand) : Statement (.jne f1 f2) := of_parts _
theorem jlt (f1 f2 : Operand) : Statement (.jlt f1 f2) := of_parts _
theorem jle (f1 f2 : Operand) : Statement (.jle f1 f2) := of_parts _
theorem jgt (f1 f2 : Operand) : Statement (.jgt f1 f2) := of_parts _
theorem jge (f1 f2 : Operand) : Statement (.jge f1 f2) := of_parts _
theorem jmp (f1 f2 : Operand) : Statement (.jmp f1 f2) := of_parts _
theorem mod (f1 f2 : Operand) : Statement (.mod f1 f2) := of_parts _
theorem add (f1 f2 : Operand) : Statement (.add f1 f2) := of_parts _
theorem sub (f1 f2 : Operand) : Statement (.sub f1 f2) := of_parts _
theorem mul (f1 f2 : Operand) : Statement (.mul f1 f2) := of_parts _
theorem div (f1 f2 : Operand) : Statement (.div f1 f2) := of_parts _

end Sys2Proof.Laws.EncodesItsOpcode
end

