-- ==== Sys2Proof/Laws/Run.lean ====
section
/-! SUPPORT. What the run loop and the host's actions can do, said once. -/

namespace Sys2Proof.Machine

/-! ### The run loop -/

theorem runLoop_of_not_running {s : State} (h : s.run ≠ .running) (n : Nat) : runLoop n s = .next (.ended s) := by
  cases n with
  | zero => rw [runLoop, if_neg h]
  | succ n => rw [runLoop, if_neg h]

theorem runLoop_zero {s : State} (h : s.run = .running) : runLoop 0 s = .next (.outOfFuel s) := by
  rw [runLoop, if_pos h]

theorem runLoop_succ {s t : State} (h : s.run = .running) (hs : step s = .next t) (n : Nat) :
    runLoop (n + 1) s = runLoop n t := by
  rw [runLoop, if_pos h, hs]

/-- All that the run loop can do when it comes out: the run was over; or the fuel was; or it took a step and went on. -/
theorem runLoop_cases {n : Nat} {s : State} {e : RunEnd} (h : runLoop n s = .next e) :
    (s.run ≠ .running ∧ e = .ended s) ∨
    (s.run = .running ∧ n = 0 ∧ e = .outOfFuel s) ∨
    (s.run = .running ∧ ∃ m t, n = m + 1 ∧ step s = .next t ∧ runLoop m t = .next e) := by
  by_cases hr : s.run = .running
  · cases n with
    | zero =>
      rw [runLoop_zero hr] at h
      cases h
      exact .inr (.inl ⟨hr, rfl, rfl⟩)
    | succ m =>
      rw [runLoop, if_pos hr] at h
      cases hs : step s with
      | next t => rw [hs] at h; exact .inr (.inr ⟨hr, m, t, rfl, rfl, h⟩)
      | fault r => rw [hs] at h; cases h
      | refused r => rw [hs] at h; cases h
  · rw [runLoop_of_not_running hr] at h
    cases h
    exact .inl ⟨hr, rfl⟩

/-! ### The host -/

/-- All that a host action can do (00_scope.md R16). -/
theorem hostAct_cases {a : HostAction} {s t : State} (h : hostAct a s = some t) :
    (∃ supplied, a = .reset supplied ∧ t = { State.resetWith s.cfg with input := supplied }) ∨
    (∃ sp c v, a = .load sp c v ∧ s.run = .idle ∧ c < s.sizeOf sp ∧ t = s.loadCell sp c v) ∨
    (a = .start ∧ s.run = .idle ∧ t = s.started) ∨
    (∃ v, a = .supply v ∧ s.run = .running ∧ t = { s with input := s.input ++ [v] }) := by
  cases a with
  | reset supplied => cases h; exact .inl ⟨supplied, rfl, rfl⟩
  | load sp c v =>
    by_cases hc : s.run = .idle ∧ c < s.sizeOf sp
    · rw [hostAct, if_pos hc] at h
      cases h
      exact .inr (.inl ⟨sp, c, v, rfl, hc.1, hc.2, rfl⟩)
    · rw [hostAct, if_neg hc] at h
      cases h
  | start =>
    by_cases hc : s.run = .idle
    · rw [hostAct, if_pos hc] at h
      cases h
      exact .inr (.inr (.inl ⟨rfl, hc, rfl⟩))
    · rw [hostAct, if_neg hc] at h
      cases h
  | supply v =>
    by_cases hc : s.run = .running
    · rw [hostAct, if_pos hc] at h
      cases h
      exact .inr (.inr (.inr ⟨v, rfl, hc, rfl⟩))
    · rw [hostAct, if_neg hc] at h
      cases h

end Sys2Proof.Machine
end

