-- ==== Sys2Proof/Tests/Slice0.lean ====
section
/-! SUPPORT. Tests of the model, and one witness for the hypotheses of each statement. Expected values are those of
95_test_vectors.md (the vector's id stands in the comment) or worked by hand from the rule named. -/

namespace Sys2Proof.Machine.Tests

open Sys2Proof Sys2Proof.Machine Sys2Proof.Statements

/-! ### Helpers -/

/-- A running core of configuration `c` with the registers and cells given. -/
def coreOf (c : Config) (regs mem : List (Nat × Word)) : State :=
  let s := regs.foldl (fun s p => s.writeReg p.1 p.2) (State.resetWith c).started
  mem.foldl (fun s p => s.writeMem p.1 p.2) s

/-- A running core with the default parameters. -/
def core (regs mem : List (Nat × Word)) : State := coreOf Config.standard regs mem

/-- The word `w` at address `a`, PC = `a`. -/
def boot (a : Nat) (w : Word) (regs mem : List (Nat × Word)) : State :=
  core ((Reg.PC, BitVec.ofNat 32 a) :: regs) ((a, w) :: mem)

/-- The outcome is a next state with the property. -/
def ends (o : Host.Outcome State Fault Refusal) (p : State → Bool) : Bool :=
  match o with
  | .next t => p t
  | .fault _ | .refused _ => false

/-- The register, memory and PC values after, and the core still running. -/
def goes (o : Host.Outcome State Fault Refusal) (regs mem : List (Nat × Word)) : Bool :=
  ends o fun t => t.run = .running && regs.all (fun p => t.readReg p.1 == p.2) && mem.all (fun p => t.readMem p.1 == p.2)

/-- The core faulted with `f`, these registers holding these values. -/
def faults (o : Host.Outcome State Fault Refusal) (f : FaultKind) (regs : List (Nat × Word)) : Bool :=
  ends o fun t => t.run = .faulted && t.flt == some f && regs.all (fun p => t.readReg p.1 == p.2)

/-- The state an outcome answers. -/
def after (o : Host.Outcome State Fault Refusal) (s : State) : State :=
  match o with
  | .next t => t
  | .fault _ | .refused _ => s

theorem answers {o : Host.Outcome State Fault Refusal} {s : State} {p : State → Bool} (h : ends o p = true) :
    o = .next (after o s) := by
  cases o with
  | next t => rfl
  | fault r => cases h
  | refused r => cases h

theorem stackOk_of {s : State} (h : decide ((s.readReg Reg.SPR).signed - 1 ≤ (s.readReg Reg.TSP).signed) = true) :
    s.StackOk := by
  unfold State.StackOk
  exact of_decide_eq_true h

theorem inMem_of {c : Config} {a : Int} (h : (decide (0 ≤ a) && decide (a < (c.memSize : Int))) = true) : InMem c a := by
  simpa [InMem] using h

theorem not_inMem_of {c : Config} {a : Int} (h : (decide (0 ≤ a) && decide (a < (c.memSize : Int))) = false) :
    ¬ InMem c a := fun hm => by
  unfold InMem at hm
  simp [hm.1, hm.2] at h

/-- What `Ready` asks, as a test. -/
def readyTest (s : State) : Bool :=
  s.cfg.wf && decide (s.run = .running) && s.scanWait.isNone && decide (0 ≤ (s.readReg Reg.PC).signed) &&
    decide ((s.readReg Reg.PC).signed < (s.cfg.memSize : Int))

theorem ready_of {s : State} (h : readyTest s = true) : Ready s := by
  simp only [readyTest, Bool.and_eq_true, decide_eq_true_eq, Option.isNone_iff_eq_none] at h
  exact ⟨h.1.1.1.1, h.1.1.1.2, h.1.1.2, h.1.2, h.2⟩

/-! ### Well-formedness: an ill-formed term for each check -/

theorem test_wf_refuses_reg :
    (Instr.mov (.reg 256) (.reg 0)).wellFormed = false ∧ (Instr.mov (.reg 0) (.reg 256)).wellFormed = false ∧
    (Instr.mov (.reg 255) (.reg 255)).wellFormed = true := by decide

theorem test_wf_refuses_regInd :
    (Instr.mov (.regInd 256) (.reg 0)).wellFormed = false ∧ (Instr.mov (.reg 0) (.regInd 256)).wellFormed = false ∧
    (Instr.mov (.regInd 255) (.regInd 255)).wellFormed = true := by decide

theorem test_wf_refuses_imm :
    (Instr.mov (.imm 256) (.reg 0)).wellFormed = false ∧ (Instr.mov (.reg 0) (.imm 256)).wellFormed = false ∧
    (Instr.mov (.imm 255) (.imm 255)).wellFormed = true := by decide

theorem test_wf_refuses_ind :
    (Instr.mov (.ind 256) (.reg 0)).wellFormed = false ∧ (Instr.mov (.reg 0) (.ind 256)).wellFormed = false ∧
    (Instr.mov (.ind 255) (.ind 255)).wellFormed = true := by decide

theorem test_wf_refuses_idx :
    (Instr.mov (.idx 256) (.reg 0)).wellFormed = false ∧ (Instr.mov (.reg 0) (.idx 256)).wellFormed = false ∧
    (Instr.mov (.idx 255) (.idx 255)).wellFormed = true := by decide

theorem test_wf_refuses_direct :
    (Instr.mov (.direct 256) (.reg 0)).wellFormed = false ∧ (Instr.mov (.reg 0) (.direct 256)).wellFormed = false ∧
    (Instr.mov (.direct 255) (.direct 255)).wellFormed = true := by decide

theorem test_wf_refuses_stack :
    (Instr.mov (.stack 256) (.reg 0)).wellFormed = false ∧ (Instr.mov (.reg 0) (.stack 256)).wellFormed = false ∧
    (Instr.mov (.stack 255) (.stack 255)).wellFormed = true := by decide

theorem test_wf_refuses_auto :
    (Instr.mov (.auto .increment 128) (.reg 0)).wellFormed = false ∧
    (Instr.mov (.reg 0) (.auto .decrement 128)).wellFormed = false ∧
    (Instr.mov (.auto .decrement 127) (.auto .increment 127)).wellFormed = true := by decide

/-- 30_encoding.md R76; 95_test_vectors.md E2. -/
theorem test_encode_refuses_256 :
    encode? (.mov (.imm 256) (.reg 17)) = none ∧ encode? (.mov (.imm 255) (.reg 17)) = some 0x40BFC088#32 := by decide

theorem test_noncanonical_fields :
    (Instr.eop (.reg 1) .absent).canonical = false ∧ (Instr.ret .absent (.imm 0)).canonical = false ∧
    (Instr.prnt (.reg 17) (.regInd 255)).canonical = false ∧ (Instr.push (.reg 17) .absent).canonical = false ∧
    (Instr.push (.reg 17) .stackMark).canonical = true ∧ (Instr.eop .absent .absent).canonical = true := by decide

/-- Each constraint of 00_scope.md R6. -/
theorem test_config_bounds :
    ({ Config.standard with nreg := 31 }).wf = false ∧ ({ Config.standard with nreg := 129 }).wf = false ∧
    ({ Config.standard with memSize := 255 }).wf = false ∧
      ({ Config.standard with memSize := 0, stackLimit := -1, stackBase := 0 }).wf = false ∧
    ({ Config.standard with stackBase := 257 }).wf = false ∧
      ({ Config.standard with memSize := 2 ^ 31 + 1 }).wf = false ∧
    ({ Config.standard with nreg := 128, memSize := 2 ^ 31, stackBase := 256 }).wf = true := by decide

/-! ### Decoding: a word written out for every instruction (95_test_vectors.md section 2.1, or 30_encoding.md R80) -/

theorem test_decode_prnt :
    decode 0b00_00000_000_00010001_000_00000000_000#32 = .ok (.prnt (.reg 17) (.reg 0)) ∧
      encode (.prnt (.reg 17) (.reg 0)) = 0b00_00000_000_00010001_000_00000000_000#32 := by decide

theorem test_decode_eop :
    decode 0b00_00001_000_00000000_000_00000000_000#32 = .ok (.eop (.reg 0) (.reg 0)) ∧
      encode (.eop (.reg 0) (.reg 0)) = 0b00_00001_000_00000000_000_00000000_000#32 := by decide

theorem test_decode_mov :
    decode 0b01_00000_001_00010001_011_00101001_000#32 = .ok (.mov (.regInd 17) (.ind 41)) ∧
      encode (.mov (.regInd 17) (.ind 41)) = 0b01_00000_001_00010001_011_00101001_000#32 := by decide

theorem test_decode_push :
    decode 0b01_00001_000_00010001_111_00000000_000#32 = .ok (.push (.reg 17) (.stack 0)) ∧
      encode (.push (.reg 17) (.stack 0)) = 0b01_00001_000_00010001_111_00000000_000#32 := by decide

theorem test_decode_pop :
    decode 0b01_00010_000_00010011_111_00000000_000#32 = .ok (.pop (.reg 19) (.stack 0)) ∧
      encode (.pop (.reg 19) (.stack 0)) = 0b01_00010_000_00010011_111_00000000_000#32 := by decide

theorem test_decode_top :
    decode 0b01_00011_000_00010101_111_00000000_000#32 = .ok (.top (.reg 21) (.stack 0)) ∧
      encode (.top (.reg 21) (.stack 0)) = 0b01_00011_000_00010101_111_00000000_000#32 := by decide

theorem test_decode_call :
    decode 0b01_00100_110_00001000_000_00000000_000#32 = .ok (.call (.direct 8) (.reg 0)) ∧
      encode (.call (.direct 8) (.reg 0)) = 0b01_00100_110_00001000_000_00000000_000#32 := by decide

theorem test_decode_ret :
    decode 0b01_00101_000_00000000_000_00000000_000#32 = .ok (.ret (.reg 0) (.reg 0)) ∧
      encode (.ret (.reg 0) (.reg 0)) = 0b01_00101_000_00000000_000_00000000_000#32 := by decide

theorem test_decode_scan :
    decode 0b01_00110_000_00010001_000_00000000_000#32 = .ok (.scan (.reg 17) (.reg 0)) ∧
      encode (.scan (.reg 17) (.reg 0)) = 0b01_00110_000_00010001_000_00000000_000#32 := by decide

theorem test_decode_jeq :
    decode 0b10_00000_000_00010001_110_00000110_000#32 = .ok (.jeq (.reg 17) (.direct 6)) ∧
      encode (.jeq (.reg 17) (.direct 6)) = 0b10_00000_000_00010001_110_00000110_000#32 := by decide

theorem test_decode_jne :
    decode 0b10_00001_000_00010010_000_00010011_000#32 = .ok (.jne (.reg 18) (.reg 19)) ∧
      encode (.jne (.reg 18) (.reg 19)) = 0b10_00001_000_00010010_000_00010011_000#32 := by decide

theorem test_decode_jlt :
    decode 0b10_00010_000_00010001_110_00000110_000#32 = .ok (.jlt (.reg 17) (.direct 6)) ∧
      encode (.jlt (.reg 17) (.direct 6)) = 0b10_00010_000_00010001_110_00000110_000#32 := by decide

theorem test_decode_jle :
    decode 0b10_00011_000_00010001_110_00000110_000#32 = .ok (.jle (.reg 17) (.direct 6)) ∧
      encode (.jle (.reg 17) (.direct 6)) = 0b10_00011_000_00010001_110_00000110_000#32 := by decide

theorem test_decode_jgt :
    decode 0b10_00100_010_00000001_010_00001001_000#32 = .ok (.jgt (.imm 1) (.imm 9)) ∧
      encode (.jgt (.imm 1) (.imm 9)) = 0b10_00100_010_00000001_010_00001001_000#32 := by decide

theorem test_decode_jge :
    decode 0b10_00101_000_00010001_110_00000110_000#32 = .ok (.jge (.reg 17) (.direct 6)) ∧
      encode (.jge (.reg 17) (.direct 6)) = 0b10_00101_000_00010001_110_00000110_000#32 := by decide

theorem test_decode_jmp :
    decode 0b10_00110_110_00000011_000_00000000_000#32 = .ok (.jmp (.direct 3) (.reg 0)) ∧
      encode (.jmp (.direct 3) (.reg 0)) = 0b10_00110_110_00000011_000_00000000_000#32 := by decide

theorem test_decode_mod :
    decode 0b11_00000_000_00010000_000_00011111_000#32 = .ok (.mod (.reg 16) (.reg 31)) ∧
      encode (.mod (.reg 16) (.reg 31)) = 0b11_00000_000_00010000_000_00011111_000#32 := by decide

theorem test_decode_add :
    decode 0b11_00001_100_00010010_101_00010011_000#32 = .ok (.add (.idx 18) (.auto .increment 19)) ∧
      encode (.add (.idx 18) (.auto .increment 19)) = 0b11_00001_100_00010010_101_00010011_000#32 := by decide

theorem test_decode_sub :
    decode 0b11_00010_110_11001000_101_10010011_000#32 = .ok (.sub (.direct 200) (.auto .decrement 19)) ∧
      encode (.sub (.direct 200) (.auto .decrement 19)) = 0b11_00010_110_11001000_101_10010011_000#32 := by decide

theorem test_decode_mul :
    decode 0b11_00011_000_00010010_010_00000110_000#32 = .ok (.mul (.reg 18) (.imm 6)) ∧
      encode (.mul (.reg 18) (.imm 6)) = 0b11_00011_000_00010010_010_00000110_000#32 := by decide

theorem test_decode_div :
    decode 0b11_00100_000_00010001_000_00010010_000#32 = .ok (.div (.reg 17) (.reg 18)) ∧
      encode (.div (.reg 17) (.reg 18)) = 0b11_00100_000_00010001_000_00010010_000#32 := by decide

/-- K7; bits 2:0. -/
theorem test_decode_ignores_reserved_bits :
    decode 0xC2044097#32 = .ok (.add (.reg 17) (.reg 18)) ∧ decodeTableWord 32 0xC2044097 =
      some (.add (.reg 17) (.reg 18)) := by decide

/-- K11, K9. -/
theorem test_decode_keeps_unused_fields :
    decode 0x00044FF8#32 = .ok (.prnt (.reg 17) (.regInd 255)) ∧ decode 0x4BFFFFFF#32 =
      .ok (.ret (.stack 255) (.stack 255)) := by decide

/-- K1 to K6: the marker codes DEF and DEB among them. -/
theorem test_decode_rejects_unknown :
    decode 0x04000000#32 = .error (.unknownOpcode 0 2) ∧ decode 0x4E000000#32 = .error (.unknownOpcode 1 7) ∧
    decode 0x50000000#32 = .error (.unknownOpcode 1 8) ∧ decode 0x8E000000#32 = .error (.unknownOpcode 2 7) ∧
    decode 0xCA000000#32 = .error (.unknownOpcode 3 5) ∧ decode 0xFFFFFFFF#32 = .error (.unknownOpcode 3 31) :=
  by decide

/-- E7. -/
theorem test_expand_conditional_jump :
    (expandJcc .jeq (.reg 17) (.reg 18)).map encode = [0xC4044090#32, 0x80044000#32] := by decide

/-! ### One step of every instruction -/

/-- K12, P-4: the all-zero word prints the next address. -/
theorem test_prnt_pc :
    ends (step (boot 4 0x00000000#32 [] [])) (fun t => t.out == [5#32] && t.readReg Reg.IR == 4#32 &&
      t.readReg Reg.PC == 5#32) = true := by decide

/-- P-8. -/
theorem test_prnt_stack :
    faults (step (boot 0 0x01C00000#32 [] [])) .invalidAddress
      [(0, 1#32)] = true := by decide

/-- K8: every unused bit set. -/
theorem test_eop :
    ends (step (boot 4 0x03FFFFFF#32 [] [])) (fun t => t.run == .halted && t.readReg Reg.PC == 5#32 &&
      t.flt.isNone) = true := by decide

/-- A21: the captured value overwrites the incremented register. -/
theorem test_mov_over_auto :
    goes (step (boot 0 0x41444088#32 [(17, 5#32)] [])) [(17, 5#32), (0, 1#32)]
      [] = true := by decide

/-- A16. -/
theorem test_mov_field1_effect_stays :
    faults (step (boot 0 0x41444140#32 [(17, 5#32)] [])) .invalidAddress
      [(17, 6#32)] = true := by decide

/-- W8: the value is read after TSP moved. -/
theorem test_push_tsp :
    goes (step (boot 0 0x4200F800#32 [] [])) [(3, 192#32)]
      [(192, 192#32)] = true := by decide

/-- W9. -/
theorem test_push_full :
    faults (step (boot 0 0x42047800#32 [(17, 7#32), (3, 255#32)] [])) .stackOverflow
      [(3, 255#32)] = true := by decide

/-- W15: TSP moves, then takes the popped value. -/
theorem test_pop_tsp :
    goes (step (boot 0 0x4400F800#32 [(3, 193#32)] [(193, 77#32)])) [(3, 77#32)]
      [(193, 77#32)] = true := by decide

/-- W13: TSP stays moved. -/
theorem test_pop_immediate :
    faults (step (boot 0 0x44817800#32 [(3, 192#32)] [(192, 7#32)])) .immediateNotWritable
      [(3, 191#32)] = true := by decide

/-- W17. -/
theorem test_top :
    goes (step (boot 0 0x46057800#32 [(3, 194#32)] [(194, 4#32)])) [(21, 4#32), (3, 194#32)]
      [] = true := by decide

/-- W18. -/
theorem test_top_empty :
    faults (step (boot 0 0x46057800#32 [] [])) .stackUnderflow
      [(3, 191#32)] = true := by decide

/-- T19: the target is read before the push. -/
theorem test_call_tsp :
    goes (step (boot 3 0x4800C000#32 [] [])) [(0, 191#32), (1, 3#32), (3, 192#32)]
      [(192, 4#32)] = true := by decide

/-- T18. -/
theorem test_call_full :
    faults (step (boot 3 0x49820000#32 [(3, 255#32)] [])) .stackOverflow
      [(0, 4#32)] = true := by decide

/-- K9: every unused bit set. -/
theorem test_ret :
    goes (step (boot 11 0x4BFFFFFF#32 [(3, 192#32)] [(192, 4#32)])) [(0, 4#32), (3, 191#32)]
      [] = true := by decide

/-- T21. -/
theorem test_ret_empty :
    faults (step (boot 11 0x4A000000#32 [] [])) .stackUnderflow
      [(0, 12#32)] = true := by decide

/-- W23, then the host supplies 42: the waiting step ends without resolving field 1 again; R1 = 4, the captured 3 is
not writable (41_execution_engine.md R151). -/
theorem test_scan_waits :
    ends (step (boot 0 0x4D444000#32 [(17, 3#32)] [])) (fun t => t.scanWait == some (.imm 3#32) &&
      t.readReg 17 == 4#32 &&
      match hostAct (.supply 42#32) t with
      | some u => faults (step u) .immediateNotWritable [(17, 4#32)]
      | none => false) = true := by decide

/-- W21. -/
theorem test_scan_takes_one :
    ends (step { boot 0 0x4D8A0000#32 [] [] with input := [0xFFFFFFFD#32, 8#32] })
      (fun t => t.input == [8#32] && t.readMem 40 == 0xFFFFFFFD#32) = true := by decide

/-- PC after `Jcc R1 @6` for R1 = 0, 1, 2^31 - 1, -1, -2^31 (95_test_vectors.md section 2.6). -/
def condRow (w : Word) : List Nat :=
  [0#32, 1#32, 0x7FFFFFFF#32, 0xFFFFFFFF#32, 0x80000000#32].map fun v =>
    ((after (step (boot 0 w [(17, v)] [])) State.reset).readReg Reg.PC).toNat

theorem test_jeq :
    condRow 0x80047030#32 = [6, 1, 1, 1, 1] := by decide

theorem test_jne :
    condRow 0x82047030#32 = [1, 6, 6, 6, 6] := by decide

theorem test_jlt :
    condRow 0x84047030#32 = [1, 1, 1, 6, 6] := by decide

theorem test_jle :
    condRow 0x86047030#32 = [6, 1, 1, 6, 6] := by decide

theorem test_jgt :
    condRow 0x88047030#32 = [1, 6, 6, 1, 1] := by decide

theorem test_jge :
    condRow 0x8A047030#32 = [6, 6, 6, 1, 1] := by decide

/-- T3. -/
theorem test_jeq_not_taken_checks_field2 :
    faults (step (boot 0 0x80044890#32 [(17, 1#32), (18, 300#32)] [])) .invalidAddress
      [(0, 1#32)] = true := by decide

/-- T9: the address, not the cell's content. -/
theorem test_jmp_memory_kind :
    goes (step (boot 0 0x8C444000#32 [(17, 100#32)] [(100, 7#32)])) [(0, 100#32)]
      [] = true := by decide

/-- T14. -/
theorem test_jmp_ir :
    goes (step (boot 4 0x8C004000#32 [] [])) [(0, 4#32), (1, 4#32)]
      [] = true := by decide

/-- R1 after `op R1 R2` (95_test_vectors.md section 2.7). -/
def arithR1 (w p q : Word) : Word :=
  (after (step (boot 0 w [(17, p), (18, q)] [])) State.reset).readReg 17

theorem test_mod :
    arithR1 0xC0044090#32 0xFFFFFFF9#32 0x00000002#32 = 0xFFFFFFFF#32 ∧
    arithR1 0xC0044090#32 0x00000007#32 0xFFFFFFFE#32 = 0x00000001#32 ∧
    arithR1 0xC0044090#32 0x80000000#32 0xFFFFFFFF#32 = 0x00000000#32 := by decide

theorem test_add :
    arithR1 0xC2044090#32 0x7FFFFFFF#32 0x00000001#32 = 0x80000000#32 ∧
    arithR1 0xC2044090#32 0xFFFFFFF9#32 0x00000002#32 = 0xFFFFFFFB#32 := by decide

theorem test_sub :
    arithR1 0xC4044090#32 0x7FFFFFFF#32 0xFFFFFFFF#32 = 0x80000000#32 ∧
    arithR1 0xC4044090#32 0x00000000#32 0x00000005#32 = 0xFFFFFFFB#32 := by decide

theorem test_mul :
    arithR1 0xC6044090#32 0x7FFFFFFF#32 0xFFFFFFFF#32 = 0x80000001#32 ∧
    arithR1 0xC6044090#32 0x00010000#32 0x00010000#32 = 0x00000000#32 := by decide

theorem test_div :
    arithR1 0xC8044090#32 0xFFFFFFF9#32 0x00000002#32 = 0xFFFFFFFD#32 ∧
    arithR1 0xC8044090#32 0x00000007#32 0xFFFFFFFE#32 = 0xFFFFFFFD#32 ∧
    arithR1 0xC8044090#32 0x80000000#32 0xFFFFFFFF#32 = 0x80000000#32 := by decide

/-- X14. -/
theorem test_mod_auto_zero :
    faults (step (boot 0 0xC0046C90#32 [(17, 9#32), (18, 1#32)] [])) .divisionByZero
      [(17, 9#32), (18, 0#32)] = true := by decide

/-- X6. -/
theorem test_div_zero_before_write :
    faults (step (boot 0 0xC8815000#32 [] [])) .divisionByZero
      [] = true := by decide

/-- X13. -/
theorem test_sub_auto_destination :
    faults (step (boot 0 0xC5444090#32 [(17, 5#32), (18, 1#32)] [])) .immediateNotWritable
      [(17, 6#32)] = true := by decide

/-- A22. -/
theorem test_add_auto_same_register :
    goes (step (boot 0 0xC2046888#32 [(17, 5#32)] [])) [(17, 11#32)]
      [] = true := by decide

/-- X10. -/
theorem test_mul_immediate :
    goes (step (boot 0 0xC6049030#32 [(18, 7#32)] [])) [(18, 42#32)]
      [] = true := by decide

/-- A25. -/
theorem test_resolver_idx_last_cell :
    goes (step (boot 0 0x4081E088#32 [(17, 255#32)] [])) []
      [(255, 7#32)] = true := by decide

/-- A14. -/
theorem test_resolver_negative_address :
    faults (step (boot 0 0x40444090#32 [(17, 0xFFFFFFFF#32)] [])) .invalidAddress
      [(18, 0#32)] = true := by decide

/-- A10. -/
theorem test_resolver_decrement_wraps :
    goes (step (boot 0 0x41644090#32 [] [])) [(17, 0xFFFFFFFF#32), (18, 0xFFFFFFFF#32)]
      [] = true := by decide

/-- K6. -/
theorem test_unknown_opcode :
    faults (step (boot 9 0xFFFFFFFF#32 [] [])) .unknownOpcode
      [(0, 10#32), (1, 9#32)] = true := by decide

/-- F4, then F1. -/
theorem test_fetch_last_cell :
    ends (step (core [(Reg.PC, 255#32), (Reg.IR, 7#32)] [])) (fun t => t.out == [256#32] &&
      t.readReg Reg.IR == 255#32 &&
      faults (step t) .invalidAddress [(Reg.PC, 256#32), (Reg.IR, 255#32)]) = true := by decide

/-- A26: a store over the executing word itself. -/
theorem test_self_overwrite :
    goes (step (boot 0 0x4081F000#32 [] [])) [(0, 1#32)] [(0, 7#32)] = true := by decide

/-! ### The run loop, memory, reset, the host -/

/-- 41_execution_engine.md R147 on an EOP, with fuel to spare and with none. -/
theorem test_run_ends :
    (match runLoop 2 (boot 4 0x02000000#32 [] []) with
      | .next (.ended t) => t.run == .halted && t.readReg Reg.PC == 5#32
      | _ => false) = true ∧
    runLoop 0 (boot 4 0x02000000#32 [] []) = .next (.outOfFuel (boot 4 0x02000000#32 [] [])) := ⟨by decide, rfl⟩

/-- A SCAN with no input keeps RUN = RUNNING (41_execution_engine.md R151). -/
theorem test_run_waiting_scan_uses_fuel :
    (match runLoop 3 (boot 0 0x4C044000#32 [] []) with
      | .next (.outOfFuel t) => t.scanWait == some (.reg 17) && t.run == .running
      | _ => false) = true := by decide

/-- The canonical form: rising addresses, no zero entry, none outside the array. -/
theorem test_store_zero_removes :
    Storage.store (Storage.store (Storage.store [] 7 1#32) 3 2#32) 7 0#32 = [(3, 2#32)] ∧
    Storage.canonical 256 [(3, 2#32), (7, 1#32)] = true ∧ Storage.canonical 256 [(7, 1#32), (3, 2#32)] = false ∧
    Storage.canonical 256 [(3, 0#32)] = false ∧ Storage.canonical 256 [(256, 1#32)] = false := by decide

/-- 95_test_vectors.md, conventions. -/
theorem test_reset_stack_pair :
    State.reset.readReg Reg.SPR = 192#32 ∧ State.reset.readReg Reg.TSP = 191#32 ∧ State.reset.fltCode = 0 := by decide

/-- 00_scope.md R16. -/
theorem test_host_load_start :
    (hostAct (.load .memory 0 0x02000000#32) State.reset).bind (fun s => (hostAct .start s).map
      fun s => ends (step s) fun t => t.run == .halted) = some true ∧
    hostAct (.load .memory 256 1#32) State.reset = none ∧ hostAct (.supply 1#32) State.reset = none ∧
    hostAct .start (core [] []) = none ∧ hostObserve (core [] []) = none := by decide

/-- P-2, through the placed word. -/
theorem test_with_fetch_word :
    ends (step (State.reset.withFetchWord 32 0x00B20000)) (fun t => t.out == [200#32]) = true := by decide

/-! ### Witnesses: for every statement with hypotheses, values that meet them together, clause by clause -/

theorem witness_DecodeOfEncode :
    (Instr.mov (.imm 255) (.auto .decrement 127)).WellFormed ∧ decode 0xC9FFFFFF#32 =
      .ok (.div (.stack 255) (.stack 255)) := by decide

theorem witness_ReservedBits :
    (0xC2044090#32 : Word).extractLsb' 3 29 = (0xC2044097#32 : Word).extractLsb' 3 29 := by decide

theorem witness_UnknownOpcodes :
    Ready (boot 0 0x04000000#32 [] []) ∧ ∀ i, decode (wordAtPC (boot 0 0x04000000#32 [] [])) ≠ .ok i := by
  refine ⟨ready_of (by decide), fun i h => ?_⟩
  rw [show decode (wordAtPC (boot 0 0x04000000#32 [] [])) = .error (.unknownOpcode 0 2) by decide] at h
  cases h

/-- The last known pair of each class and the first unknown one. -/
theorem witness_UnknownOpcodes_edges :
    [(0x02000000#32 : Word), 0x04000000#32, 0x4C000000#32, 0x4E000000#32, 0x8C000000#32,
      0x8E000000#32, 0xC8000000#32, 0xCA000000#32].map
      (fun w => (decode w).toOption.isSome) = [true, false, true, false, true, false, true, false] := by decide

/-- R1 to R4 hold the addresses 0, 255, 256 and -1; cells 41 to 44 too. -/
def pointers : State :=
  core [(17, 0#32), (18, 255#32), (19, 256#32), (20, 0xFFFFFFFF#32)]
    [(42, 255#32), (43, 256#32), (44, 0xFFFFFFFF#32)]

/-- As `pointers`, with DISP = 4: the sums 255, 256 and -1 from the registers 251, 252 and -5. -/
def displaced : State :=
  coreOf { Config.standard with disp := 4 } [(17, 251#32), (18, 252#32), (19, 0xFFFFFFFB#32), (20, 0xFFFFFFFC#32)] []

theorem witness_RegisterImmediateAndDirectModes :
    31 < pointers.cfg.nreg ∧ pointers.cfg.nreg ≤ 32 ∧ 255 < pointers.cfg.memSize ∧ pointers.cfg.memSize ≤ 256 :=
  by decide

theorem witness_IndirectModes_register :
    17 < pointers.cfg.nreg ∧ 0 < pointers.cfg.memSize ∧ (pointers.readReg 17).signed = 0 ∧
      (pointers.readReg 18).signed = 255 ∧
    (pointers.cfg.memSize : Int) ≤ (pointers.readReg 19).signed ∧ (pointers.readReg 20).signed < 0 ∧
      pointers.cfg.nreg ≤ 32 := by decide

theorem witness_IndirectModes_memory :
    41 < pointers.cfg.memSize ∧ (pointers.readMem 41).signed = 0 ∧ (pointers.readMem 42).signed = 255 ∧
    (pointers.cfg.memSize : Int) ≤ (pointers.readMem 43).signed ∧ (pointers.readMem 44).signed < 0 ∧
      pointers.cfg.memSize ≤ 256 := by decide

theorem witness_IndexedMode :
    (displaced.readReg 17).signed + displaced.cfg.disp = 255 ∧ 255 < displaced.cfg.memSize ∧
    (displaced.cfg.memSize : Int) ≤ (displaced.readReg 18).signed + displaced.cfg.disp ∧
    (displaced.readReg 19).signed + displaced.cfg.disp < 0 ∧
      (displaced.readReg 20).signed + displaced.cfg.disp = 0 ∧
    displaced.cfg.nreg ≤ 32 ∧ pointers.cfg.disp = 0 := by decide

theorem witness_AutoMode :
    31 < pointers.cfg.nreg ∧ pointers.cfg.nreg ≤ 32 := by decide

theorem witness_Resolving :
    resolve (.auto .increment 17) pointers = .ok (.imm 0#32) (pointers.writeReg 17 1#32) ∧
    resolve (.regInd 18) pointers = .ok (.mem 255) pointers ∧
      resolve (.regInd 19) pointers = .raised .invalidAddress pointers := by decide

theorem witness_ValueAfterWrite :
    write (.reg 31) 5#32 pointers = .ok () (pointers.writeReg 31 5#32) ∧ (Loc.reg 30 ≠ .reg 31) ∧
    write (.mem 255) 5#32 pointers = .ok () (pointers.writeMem 255 5#32) ∧ (Loc.reg 255 ≠ .mem 255) := by decide

/-- SPR = 0 and TSP = -1: an empty stack at the lowest address. -/
def lowStack : State := core [(Reg.SPR, 0#32), (Reg.TSP, 0xFFFFFFFF#32)] []

/-- 256 values onto an empty stack that starts at address 0 fill memory exactly. -/
theorem witness_LastInFirstOut_low :
    lowStack.cfg.wf = true ∧ -1 ≤ (lowStack.readReg Reg.TSP).signed ∧ lowStack.StackOk ∧
    (lowStack.readReg Reg.TSP).signed + (List.replicate 256 5#32).length ≤ lowStack.cfg.stackLimit ∧
    (lowStack.readReg Reg.TSP).signed < (lowStack.readReg Reg.SPR).signed :=
  ⟨by decide, by decide, stackOk_of (by decide), by rw [List.length_replicate]; decide, by decide⟩

theorem witness_LastInFirstOut_default :
    (List.replicate 64 5#32).length = 64 ∧ State.reset.StackOk ∧
    (State.reset.readReg Reg.TSP).signed + (List.replicate 64 5#32).length ≤ State.reset.cfg.stackLimit :=
  ⟨by decide, stackOk_of (by decide), by decide⟩

/-- Two elements on the stack, 7 under 9. -/
def twoDeep : State := core [(Reg.TSP, 193#32), (17, 40#32)] [(192, 7#32), (193, 9#32)]

/-- The operand R1 writes neither SPR nor TSP. -/
theorem r1_is_no_stack_register {P Q : Prop} : ∀ r ∈ [Reg.SPR, Reg.TSP],
    (P → autoReg (.reg 17) ≠ some r) ∧ (Q → Operand.reg 17 ≠ .reg r) := by
  intro r hr
  simp only [List.mem_cons, List.not_mem_nil, or_false] at hr
  rcases hr with rfl | rfl <;> exact ⟨fun _ h => (by simp [autoReg] at h), fun _ h => by cases h⟩

theorem witness_StackInstructionsKeep :
    twoDeep.cfg.wf = true ∧ twoDeep.StackOk ∧ State.reset.StackOk ∧
    (∀ r ∈ [Reg.SPR, Reg.TSP], (Instr.pop (.reg 17) .stackMark ≠ .ret (.reg 17) .stackMark →
      autoReg (.reg 17) ≠ some r) ∧
      (Instr.pop (.reg 17) .stackMark ∈ [Instr.pop (.reg 17) .stackMark, .top (.reg 17) .stackMark] →
      Operand.reg 17 ≠ .reg r)) ∧
    ∀ i ∈ [Instr.push (.reg 17) .stackMark, .pop (.reg 17) .stackMark, .top (.reg 17) .stackMark, .call (.reg 17) .absent,
        .ret .absent .absent], ∃ t, exec i twoDeep = .next t := by
  refine ⟨by decide, stackOk_of (by decide), stackOk_of (by decide), r1_is_no_stack_register, fun i hi => ?_⟩
  have h : ends (exec i twoDeep) (fun _ => true) = true := by
    revert i
    decide
  exact ⟨_, answers (s := twoDeep) h⟩

/-- R1 = 9, R2 = 5, R3 = -1, R4 = 0. -/
def four : State := core [(17, 9#32), (18, 5#32), (19, 0xFFFFFFFF#32)] []

/-- For PrntSendsTheValue, JmpGoesToItsTarget, FrameOfPrntAndJumps. PRNT, JMP: a field of each kind of location
resolves, and one raises InvalidAddress. -/
theorem witness_one_field :
    resolve (.reg 17) four = .ok (.reg 17) four ∧ resolve (.direct 255) four = .ok (.mem 255) four ∧
    resolve (.imm 255) four = .ok (.imm 255#32) four ∧ resolve (.direct 256) four = .raised .invalidAddress four :=
  by decide

/-- For MovCopiesField1ToField2, ConditionalJumps, AddSubMulWriteTheResult, ModDivWriteTheResult. MOV, the jumps,
the arithmetic: field 2 resolved in the state field 1 leaves, to each kind of location, and raising. -/
theorem witness_two_fields :
    resolve (.auto .increment 17) four = .ok (.imm 9#32) (four.writeReg 17 10#32) ∧
    resolve (.reg 17) (four.writeReg 17 10#32) = .ok (.reg 17) (four.writeReg 17 10#32) ∧
    resolve (.direct 255) (four.writeReg 17 10#32) = .ok (.mem 255) (four.writeReg 17 10#32) ∧
    resolve (.imm 0) (four.writeReg 17 10#32) = .ok (.imm 0#32) (four.writeReg 17 10#32) ∧
    resolve (.reg 32) (four.writeReg 17 10#32) = .raised .invalidAddress (four.writeReg 17 10#32) := by decide

/-- For AddSubMulWriteTheResult, ModDivWriteTheResult. Arithmetic: destinations of each kind, a right value that is
zero and one that is not. -/
theorem witness_two_fields_destination :
    resolve (.reg 17) four = .ok (.reg 17) four ∧ resolve (.reg 18) four = .ok (.reg 18) four ∧
    resolve (.direct 255) four = .ok (.mem 255) four ∧ resolve (.reg 20) four = .ok (.reg 20) four ∧
    value (.reg 18) four ≠ 0#32 ∧ value (.reg 20) four = 0#32 := by decide

/-- For ConditionalJumps. A value each condition holds of, and one it does not. -/
theorem witness_Conditions :
    (value (.reg 20) four).signed = 0 ∧ ¬ (value (.reg 20) four).signed ≠ 0 ∧ (value (.reg 19) four).signed < 0 ∧
    (value (.reg 17) four).signed > 0 ∧ ¬ (value (.reg 20) four).signed < 0 ∧ ¬ (value (.reg 20) four).signed > 0 :=
  by decide

theorem witness_EopHaltsTheCore :
    Ready (boot 255 0x02000000#32 [] []) ∧ decode (wordAtPC (boot 255 0x02000000#32 [] [])) =
      .ok (.eop (.reg 0) (.reg 0)) := ⟨ready_of (by decide), by decide⟩

/-- TSP at each edge of the stack operations: the last push, one more, the address -1, the last pop, one more. -/
def atTsp (v : Word) : State := core [(Reg.TSP, v)] []

/-- For PushMovesTspThenWrites, CallPushesThePcAndJumps. PUSH, CALL. -/
theorem witness_push_edges :
    (((atTsp 254#32).readReg Reg.TSP).signed + 1 ≤ (atTsp 254#32).cfg.stackLimit ∧
      0 ≤ ((atTsp 254#32).readReg Reg.TSP).signed + 1 ∧
      (atTsp 254#32).cfg.wf = true) ∧
    ((atTsp 255#32).readReg Reg.TSP).signed + 1 > (atTsp 255#32).cfg.stackLimit ∧
    (((atTsp 0xFFFFFFFE#32).readReg Reg.TSP).signed + 1 ≤ (atTsp 0xFFFFFFFE#32).cfg.stackLimit ∧
      ((atTsp 0xFFFFFFFE#32).readReg Reg.TSP).signed + 1 < 0) ∧
    0 ≤ ((atTsp 0xFFFFFFFF#32).readReg Reg.TSP).signed + 1 ∧
    resolve (.reg 17) (atTsp 254#32) = .ok (.reg 17) (atTsp 254#32) := by decide

/-- For PopMovesTspThenWrites, TopCopiesTheTopElement, RetPopsThePc. POP, TOP, RET. -/
theorem witness_pop_edges :
    ((atTsp 192#32).readReg Reg.SPR).signed ≤ ((atTsp 192#32).readReg Reg.TSP).signed ∧
    InMem (atTsp 192#32).cfg ((atTsp 192#32).readReg Reg.TSP).signed ∧
    ((atTsp 191#32).readReg Reg.TSP).signed < ((atTsp 191#32).readReg Reg.SPR).signed ∧
    ((atTsp 256#32).readReg Reg.SPR).signed ≤ ((atTsp 256#32).readReg Reg.TSP).signed ∧
    ¬ InMem (atTsp 256#32).cfg ((atTsp 256#32).readReg Reg.TSP).signed ∧
    InMem (atTsp 255#32).cfg ((atTsp 255#32).readReg Reg.TSP).signed ∧
    resolve (.reg 17) (atTsp 192#32) = .ok (.reg 17) (atTsp 192#32) :=
  ⟨by decide, inMem_of (by decide), by decide, by decide, not_inMem_of (by decide), inMem_of (by decide), by decide⟩

theorem witness_ScanTakes :
    four.scanWait = none ∧ resolve (.reg 17) { four with input := [42#32, 8#32] } =
      .ok (.reg 17) { four with input := [42#32, 8#32] } := by decide

theorem witness_ScanWaits :
    Ready (boot 0 0x4D444000#32 [(17, 3#32)] []) ∧ (boot 0 0x4D444000#32 [(17, 3#32)] []).input = [] ∧
    decode (wordAtPC (boot 0 0x4D444000#32 [(17, 3#32)] [])) = .ok (.scan (.auto .increment 17) (.reg 0)) ∧
    resolve (.auto .increment 17) ((boot 0 0x4D444000#32 [(17, 3#32)] []).fetched (pcCell (boot 0 0x4D444000#32 [(17, 3#32)] []))) =
      .ok (.imm 3#32) (((boot 0 0x4D444000#32 [(17, 3#32)] []).fetched 0).writeReg 17 4#32) :=
  ⟨ready_of (by decide), by decide, by decide, by decide⟩

theorem witness_RetReturnsAfterTheCall :
    twoDeep.cfg.wf = true ∧ twoDeep.run = .running ∧ resolve (.reg 17) twoDeep = .ok (.reg 17) twoDeep ∧
      twoDeep.StackOk ∧
    ∃ t, exec (.call (.reg 17) .absent) twoDeep = .next t ∧ t.run = .running :=
  ⟨by decide, by decide, by decide, stackOk_of (by decide), _, answers (s := twoDeep) (p := fun _ => true) (by decide), by decide⟩

theorem witness_RewrittenJumpFallsThrough :
    four.cfg.wf = true ∧ resolve (.reg 17) four = .ok (.reg 17) four ∧ resolve (.auto .decrement 20) four =
    .ok (.imm 0xFFFFFFFF#32) (four.writeReg 20 0xFFFFFFFF#32) := by decide

/-- R1 = -2^31, R2 = -1, R3 = 7. -/
def extreme : State := core [(17, 0x80000000#32), (18, 0xFFFFFFFF#32), (19, 7#32)] []

theorem witness_TruncatingDivisionLaws :
    17 < extreme.cfg.nreg ∧ 18 < extreme.cfg.nreg ∧ extreme.readReg 18 ≠ 0#32 ∧ extreme.readReg 17 = 0x80000000#32 ∧
    extreme.readReg 18 = 0xFFFFFFFF#32 ∧ ¬ (extreme.readReg 17 = 0x80000000#32 ∧
      extreme.readReg 19 = 0xFFFFFFFF#32) ∧
    0 ≤ (extreme.readReg 19).signed ∧ (extreme.readReg 17).signed ≤ 0 := by decide

/-- For FrameOfPrntAndJumps, FrameOfMov, FrameOfArithmetic, FrameOfPopTopScan, FrameOfPushAndCall, FrameOfRetAndEop.
Every instruction answers a next state that is no fault. -/
theorem witness_Frames :
    ∀ i ∈ [Instr.prnt (.reg 17) .absent, .jmp (.reg 17) .absent, .jeq (.reg 17) (.reg 18), .jne (.reg 17) (.reg 18),
      .jlt (.reg 17) (.reg 18), .jle (.reg 17) (.reg 18), .jgt (.reg 17) (.reg 18), .jge (.reg 17) (.reg 18),
      .mov (.reg 17) (.direct 255), .mov (.reg 17) (.reg 18), .mod (.direct 255) (.reg 17), .add (.direct 255) (.reg 17),
      .sub (.reg 18) (.reg 17), .mul (.reg 18) (.reg 17), .div (.reg 18) (.reg 17), .pop (.direct 100) .stackMark,
      .top (.reg 18) .stackMark, .scan (.direct 100) .absent, .push (.reg 17) .stackMark, .call (.reg 17) .absent,
      .ret .absent .absent, .eop .absent .absent],
    exec i { twoDeep with input := [42#32] } = .next (after (exec i { twoDeep with input := [42#32] }) twoDeep) ∧
      (after (exec i { twoDeep with input := [42#32] }) twoDeep).run ≠ .faulted := by
  intro i hi
  have h : ends (exec i { twoDeep with input := [42#32] }) (fun t => decide (t.run ≠ .faulted)) = true := by
    revert i
    decide
  have e := answers (s := twoDeep) h
  rw [e] at h
  exact ⟨e, of_decide_eq_true h⟩

/-- FrameOfPushAndCall's last clause. -/
theorem witness_Frames_fault :
    ends (exec (.push (.reg 17) .stackMark) (atTsp 255#32)) (fun t => t.run == .faulted) = true ∧
    ends (exec (.call (.reg 17) .absent) (atTsp 255#32)) (fun t => t.run == .faulted) = true ∧
      (atTsp 255#32).run ≠ .faulted := by decide

/-- FrameOfPopTopScan's clauses about SCAN: no input, one value, a field that does not resolve. -/
theorem witness_Frames_scan :
    ends (exec (.scan (.direct 100) .absent) twoDeep) (fun t => t.scanWait == some (.mem 100)) = true ∧
      twoDeep.input = [] ∧
    ({ twoDeep with input := [42#32] }).input = 42#32 :: [] ∧
    ends (exec (.scan (.stack 0) .absent) twoDeep) (fun t => t.flt == some .invalidAddress) = true := by decide

theorem witness_Frames_fields :
    resolve (.reg 17) twoDeep = .ok (.reg 17) twoDeep ∧ resolve (.direct 255) twoDeep = .ok (.mem 255) twoDeep ∧
    resolve (.direct 100) twoDeep = .ok (.mem 100) twoDeep := by decide

/-- The frames' last clauses: a register destination; a field that raises. -/
theorem witness_Frames_storing_nothing :
    (∀ l1 s1 a s2, resolve (.reg 17) twoDeep = .ok l1 s1 → resolve (.reg 18) s1 ≠ .ok (.mem a) s2) ∧
    (∀ a s1, resolve (.reg 18) twoDeep ≠ .ok (.mem a) s1) ∧
    ∀ l1 s1, resolve (.stack 0) twoDeep ≠ .ok l1 s1 := by
  refine ⟨fun l1 s1 a s2 h => ?_, fun a s1 h => ?_, fun l1 s1 h => by cases h⟩
  · cases (show Res.ok (Loc.reg 17) twoDeep = .ok l1 s1 from h)
    exact fun h2 => by cases (show Res.ok (Loc.reg 18) twoDeep = .ok (.mem a) s2 from h2)
  · cases (show Res.ok (Loc.reg 18) twoDeep = .ok (.mem a) s1 from h)

theorem witness_InstructionsRaise :
    four.run = .running ∧ ∃ t, exec (.div (.reg 17) (.reg 20)) four = .next t ∧ t.run = .faulted :=
  ⟨by decide, _, answers (s := four) (p := fun _ => true) (by decide), by decide⟩

theorem witness_StepRuns :
    Ready (boot 255 0xC2044090#32 [] []) ∧ decode (wordAtPC (boot 255 0xC2044090#32 [] [])) =
      .ok (.add (.reg 17) (.reg 18)) ∧
    Ready (boot 0 0xC2044090#32 [] []) := ⟨ready_of (by decide), by decide, ready_of (by decide)⟩

theorem witness_FetchOutsideMemory :
    (core [(Reg.PC, 256#32)] []).cfg.wf = true ∧ (core [(Reg.PC, 256#32)] []).run = .running ∧
    (core [(Reg.PC, 256#32)] []).scanWait = none ∧
    ((core [(Reg.PC, 256#32)] []).cfg.memSize : Int) ≤ ((core [(Reg.PC, 256#32)] []).readReg Reg.PC).signed ∧
    ((core [(Reg.PC, 0xFFFFFFFF#32)] []).readReg Reg.PC).signed < 0 := by decide

theorem witness_EveryStepHasANextState :
    four.cfg.wf = true ∧ (coreOf { Config.standard with nreg := 31 } [] []).cfg.wf = false := by decide

theorem witness_StoppedCore :
    State.reset.cfg.wf = true ∧ State.reset.run ≠ .running ∧ four.halt.run ≠ .running ∧
      (takeFault .divisionByZero four).run ≠ .running := by decide

/-- For EveryStepKeepsTheInvariant, RunLoopKeepsTheInvariant. -/
theorem witness_EveryStepKeepsTheInvariant :
    four.Inv ∧ (four.awaitInput (.mem 255)).Inv ∧ (takeFault .stackOverflow four).Inv ∧ ∃ t, step four = .next t :=
  ⟨by decide, by decide, by decide, _, answers (s := four) (p := fun _ => true) (by decide)⟩

/-- The two ends of what R6 admits. -/
theorem witness_ResetHasTheInvariant :
    ({ nreg := 128, memSize := 2 ^ 31, stackBase := 2 ^ 31, stackLimit := 2 ^ 31 - 1, disp := -7 } : Config).wf = true ∧
    ({ nreg := 32, memSize := 1, stackBase := 0, stackLimit := -1, disp := 0 } : Config).wf = true := by decide

theorem witness_Reachable :
    Reachable (after (step State.reset.started) State.reset) := by
  have h : Reachable State.reset.started := .host (.reset Config.standard (by decide)) .start (by decide)
  exact .step h (answers (p := fun _ => true) (by decide))

/-- For RunStateTransitions, ChannelsOnlyGrowAndDrain, ConfigurationNeverChanges. -/
theorem witness_RunStateTransitions :
    (∃ t, step four = .next t) ∧ four.run = .running ∧ hostAct (.reset []) four.halt = some State.reset ∧
      four.halt.run = .halted ∧
    State.reset.run = .idle ∧ hostAct .start State.reset = some State.reset.started ∧
      State.reset.started.run = .running :=
  ⟨⟨_, answers (s := four) (p := fun _ => true) (by decide)⟩, by decide, by decide, by decide, by decide, by decide, by decide⟩

theorem witness_AStoreIsSeenByTheNextFetch :
    four.cfg.wf = true ∧ four.run = .running ∧ four.scanWait = none ∧
    resolve (.reg 17) (core [(Reg.PC, 255#32), (17, 0x02000000#32)] []) =
      .ok (.reg 17) (core [(Reg.PC, 255#32), (17, 0x02000000#32)] []) ∧
    resolve (.direct 255) (core [(Reg.PC, 255#32), (17, 0x02000000#32)] []) =
      .ok (.mem 255) (core [(Reg.PC, 255#32), (17, 0x02000000#32)] []) ∧
    ((core [(Reg.PC, 255#32), (17, 0x02000000#32)] []).readReg Reg.PC).signed = 255 ∧
    decode (value (.reg 17) (core [(Reg.PC, 255#32), (17, 0x02000000#32)] [])) = .ok (.eop (.reg 0) (.reg 0)) ∧
    ends (exec (.mov (.reg 17) (.direct 255)) (core [(Reg.PC, 255#32), (17, 0x02000000#32)] [])) (fun t => t.run == .running) = true :=
  by decide

theorem witness_ResetValues :
    Config.standard.wf = true ∧ Config.standard.stackBase < 2 ^ 31 ∧ 16 ≠ Reg.SPR ∧ 16 ≠ Reg.TSP := by decide

theorem witness_HostActions :
    State.reset.run = .idle ∧ 31 < State.reset.cfg.nreg ∧ ¬ 32 < State.reset.cfg.nreg ∧ 255 < State.reset.cfg.memSize ∧
    ¬ 256 < State.reset.cfg.memSize ∧ State.reset.scanWait = none ∧ four.run ≠ .idle ∧ four.run = .running ∧
    State.reset.run ≠ .running := by decide

theorem witness_PlacedWord :
    State.reset.cfg.wf = true ∧ InMem State.reset.cfg (State.reset.readReg Reg.PC).signed ∧
    decodeTableWord 32 0xC2044090 = some (.add (.reg 17) (.reg 18)) ∧ decodeTableWord 8 0xC2044000 =
      some (.prnt (.reg 0) (.reg 0)) := ⟨by decide, inMem_of (by decide), by decide, by decide⟩

theorem witness_TakingAFault :
    ends (step (takeFault .stackOverflow four)) (fun t => t.run == .faulted) = true ∧
    hostAct (.reset []) (takeFault .stackOverflow four) = some State.reset := by decide

/-- JMP IR at 4, after it ran once: it jumps to itself (T14). -/
def selfJump : State := after (step (boot 4 0x8C004000#32 [] [])) State.reset

/-- For RunLoopStepsWhileRunning. -/
theorem witness_RunLoopSteps :
    State.reset.run ≠ .running ∧ (boot 4 0x02000000#32 [] []).run = .running ∧
    (∃ t, step (boot 4 0x02000000#32 [] []) = .next t) ∧
    runLoop 1 (boot 4 0x02000000#32 [] []) = .next (.ended (after (step (boot 4 0x02000000#32 [] [])) State.reset)) ∧
    runLoop 0 (boot 4 0x02000000#32 [] []) = .next (.outOfFuel (boot 4 0x02000000#32 [] [])) :=
  ⟨by decide, by decide, ⟨_, answers (s := State.reset) (p := fun _ => true) (by decide)⟩, rfl, rfl⟩

/-- For RunLoopStepsWhileRunning, the property of being one state that steps to itself. -/
theorem witness_RunLoopNeverEnds :
    ∀ s, s = selfJump → s.run = .running ∧ ∃ t, step s = .next t ∧ t = selfJump := by
  intro s hs
  subst hs
  have e : after (step selfJump) State.reset = selfJump := by decide
  exact ⟨by decide, _, answers (s := State.reset) (p := fun _ => true) (by decide), e⟩

/-- For RunLoopKeepsTheInvariant: a RUNNING state whose run ends (witness_RunLoopSteps), and an IDLE one. -/
theorem witness_RunLoopKeepsTheInvariant :
    (boot 4 0x02000000#32 [] []).Inv ∧ (boot 4 0x02000000#32 [] []).run = .running ∧ ({ four with run := .idle }).Inv ∧
    ({ four with run := .idle }).run ≠ .running := by decide

/-- For FaultCodesAndTheNumberInFlt. -/
theorem witness_FaultCodes :
    four.flt = none ∧ (takeFault .invalidAddress four).flt = some .invalidAddress := by decide

theorem witness_EveryHostActionKeepsTheInvariant :
    ({ four with run := .idle }).Inv ∧ four.Inv ∧ (four.awaitInput (.reg 31)).Inv ∧
    hostAct (.load .memory 255 1#32) { four with run := .idle } =
      some ({ four with run := .idle }.writeMem 255 1#32) ∧
    hostAct (.load .registers 31 1#32) { four with run := .idle } =
      some ({ four with run := .idle }.writeReg 31 1#32) ∧
    hostAct .start { four with run := .idle } = some four ∧
    hostAct (.supply 1#32) four = some { four with input := [1#32] } ∧
      hostAct (.reset []) (four.awaitInput (.reg 31)) = some State.reset := by decide

end Sys2Proof.Machine.Tests
end

section
/-! PROOFS. The statements of 30_encoding.md: decode and encode agree (R84), and the unknown opcode pairs (R85). -/

open Sys2Proof Sys2Proof.Machine Sys2Proof.Statements

namespace Sys2Proof

/-! ### An instruction as its mnemonic and its two fields -/

@[simp] theorem Opcode.opcode_instr (o : Opcode) (a b : Operand) : (o.instr a b).opcode = o := by
  cases o <;> rfl

@[simp] theorem Opcode.f1_instr (o : Opcode) (a b : Operand) : (o.instr a b).f1 = a := by
  cases o <;> rfl

@[simp] theorem Opcode.f2_instr (o : Opcode) (a b : Operand) : (o.instr a b).f2 = b := by
  cases o <;> rfl

@[simp] theorem Instr.instr_opcode (i : Instr) : i.opcode.instr i.f1 i.f2 = i := by
  cases i <;> rfl

theorem Instr.wellFormed_iff (i : Instr) : i.WellFormed ↔ i.f1.fits = true ∧ i.f2.fits = true := by
  simp [Instr.WellFormed, Instr.wellFormed]

/-! ### What a word decodes to -/

/-- DECODE (R79), read as a relation between the word's six fields and the instruction's parts. -/
theorem decode_eq_ok_iff (w : Word) (i : Instr) :
    decode w = .ok i ↔
      i.opcode.cls.code = classBits w ∧ i.opcode.category = categoryBits w ∧
      i.f1 = Operand.ofBits (mode1Bits w) (operand1Bits w) ∧
      i.f2 = Operand.ofBits (mode2Bits w) (operand2Bits w) := by
  constructor
  · intro h
    cases hl : Opcode.lookup (classBits w) (categoryBits w) with
    | none => simp [decode, hl] at h
    | some o =>
      obtain ⟨hc, hk⟩ := lookup_some hl
      simp only [decode, hl, Except.ok.injEq] at h
      subst h
      simp [hc, hk]
  · rintro ⟨hc, hk, h1, h2⟩
    simp [decode, ← hc, ← hk, lookup_code, ← h1, ← h2]

/-- A word is no instruction exactly when the opcode map has no row for its pair. -/
theorem decode_ne_ok_iff (w : Word) :
    (∀ i, decode w ≠ .ok i) ↔ Opcode.lookup (classBits w) (categoryBits w) = none := by
  cases hl : Opcode.lookup (classBits w) (categoryBits w) <;> simp [decode, hl]

theorem decode_encode (i : Instr) (h : i.WellFormed) : decode (encode i) = .ok i := by
  obtain ⟨fits1, fits2⟩ := i.wellFormed_iff.mp h
  obtain ⟨hc, hk, hm1, ho1, hm2, ho2, -⟩ := fields_of_parts i.opcode.cls.code i.opcode.category
    i.f1.modeBits i.f1.fieldBits i.f2.modeBits i.f2.fieldBits
  refine (decode_eq_ok_iff (encode i) i).mpr ⟨hc.symm, hk.symm, ?_, ?_⟩
  · rw [encode, hm1, ho1, i.f1.ofBits_bits fits1]
  · rw [encode, hm2, ho2, i.f2.ofBits_bits fits2]

theorem wellFormed_of_decode {w : Word} {i : Instr} (h : decode w = .ok i) : i.WellFormed := by
  obtain ⟨-, -, h1, h2⟩ := (decode_eq_ok_iff w i).mp h
  rw [i.wellFormed_iff, h1, h2]
  exact ⟨Operand.fits_ofBits _ _, Operand.fits_ofBits _ _⟩

theorem encode_of_decode {w : Word} {i : Instr} (h : decode w = .ok i) : encode i = w &&& 0xFFFFFFF8#32 := by
  obtain ⟨hc, hk, h1, h2⟩ := (decode_eq_ok_iff w i).mp h
  obtain ⟨hm1, ho1⟩ := Operand.bits_ofBits (mode1Bits w) (operand1Bits w)
  obtain ⟨hm2, ho2⟩ := Operand.bits_ofBits (mode2Bits w) (operand2Bits w)
  rw [encode, hc, hk, h1, h2, hm1, ho1, hm2, ho2, parts_of_fields]

/-! ### The unassigned pairs of the opcode map -/

/-- The number of rows a class has in the opcode map. -/
def OpClass.rows (c : OpClass) : Nat := Opcode.all.countP fun o => o.cls = c

theorem OpClass.exists_code_eq (b : BitVec 2) : ∃ c : OpClass, c.code = b := by
  have h : ∀ b : BitVec 2, b = 0b00#2 ∨ b = 0b01#2 ∨ b = 0b10#2 ∨ b = 0b11#2 := by decide
  obtain rfl | rfl | rfl | rfl := h b
  · exact ⟨.pureControl, rfl⟩
  · exact ⟨.writeOnly, rfl⟩
  · exact ⟨.controlTransfer, rfl⟩
  · exact ⟨.arithmetic, rfl⟩

/-- Each class numbers its rows from 0 with no gap, so what it leaves unassigned starts at the number of its rows. -/
theorem lookup_code_eq_none_iff (c : OpClass) (k : BitVec 5) :
    Opcode.lookup c.code k = none ↔ c.rows ≤ k.toNat := by
  revert k
  cases c <;> decide

/-- The unknown pairs of R85, class by class. -/
theorem lookup_eq_none_iff (b : BitVec 2) (k : BitVec 5) :
    Opcode.lookup b k = none ↔
      (b = 0b00#2 ∧ 2 ≤ k.toNat) ∨ (b = 0b01#2 ∧ 7 ≤ k.toNat) ∨
      (b = 0b10#2 ∧ 7 ≤ k.toNat) ∨ (b = 0b11#2 ∧ 5 ≤ k.toNat) := by
  obtain ⟨c, rfl⟩ := OpClass.exists_code_eq b
  rw [lookup_code_eq_none_iff]
  cases c <;> simp [OpClass.code, OpClass.rows, Opcode.all, Opcode.cls]

theorem length_unknown_pairs :
    ((List.range 128).filter fun n =>
      (Opcode.lookup (BitVec.ofNat 2 (n / 32)) (BitVec.ofNat 5 (n % 32))).isNone).length = 107 := by
  decide

end Sys2Proof

namespace Sys2Proof.Machine

/-! ### A step of a core that is ready -/

/-- A ready core's step is DECODE and DISPATCH of the word at PC, in the state after FETCH. -/
theorem step_of_ready {s : State} (h : Ready s) : step s = decodeAndRun (s.fetched (pcCell s)) := by
  obtain ⟨hwf, hrun, hwait, hpc⟩ := h
  exact step_fetches hwf hrun hwait hpc

/-- FETCH latches the word at PC. -/
@[simp] theorem fetched_pcCell_w (s : State) : (s.fetched (pcCell s)).w = wordAtPC s := rfl

theorem decodeAndRun_of_lookup_none {s : State} (h : Opcode.lookup (classBits s.w) (categoryBits s.w) = none) :
    decodeAndRun s = .next (takeFault .unknownOpcode s) := by
  simp [decodeAndRun, decode, h]

end Sys2Proof.Machine

/-- Settles O1: encoding is the layout by definition, and both round trips go through the relation between a word's six fields
and the instruction's parts (`decode_eq_ok_iff`). -/
theorem decodeOfEncodeIsIdentity : Obligations.DecodeOfEncodeIsIdentity :=
  ⟨fun _ => rfl, decode_encode, fun _ _ h => ⟨wellFormed_of_decode h, encode_of_decode h⟩⟩

/-- Settles O3: a word is rejected exactly where the opcode map has no row (`decode_ne_ok_iff`), and the map's gaps are those
past the last row of each class. -/
theorem unknownOpcodesAreExactlyTheUnassignedPairs : Obligations.UnknownOpcodesAreExactlyTheUnassignedPairs := by
  refine ⟨fun w => (decode_ne_ok_iff w).trans (lookup_eq_none_iff _ _), length_unknown_pairs, fun s ready unknown => ?_⟩
  have noRow := (decode_ne_ok_iff (wordAtPC s)).mp unknown
  rw [← fetched_pcCell_w] at noRow
  rw [step_of_ready ready, decodeAndRun_of_lookup_none noRow]

end

section
/-! PROOFS. The statements of 40_addressing_resolver.md on the modes that move no register: register direct, immediate and
direct (R112, R114, R118), register indirect and indirect (R113, R115). -/

namespace Sys2Proof.Machine

/-! ### The checks, in the spelling of the resolver's rules -/

theorem checkReg_of_le {a : Nat} {s : State} (h : s.cfg.nreg ≤ a) : checkReg a s = .raised .invalidAddress s :=
  checkReg_of_not_lt (Nat.not_lt.mpr h)

theorem checkMem_of_lt {a : Nat} {s : State} (h : a < s.cfg.memSize) : checkMem a s = .ok a s :=
  checkMem_of_inMem ⟨Int.natCast_nonneg a, Int.ofNat_lt.mpr h⟩

theorem checkMem_of_outside {a : Int} {s : State} (h : a < 0 ∨ (s.cfg.memSize : Int) ≤ a) :
    checkMem a s = .raised .invalidAddress s :=
  checkMem_of_not_inMem fun ⟨nonneg, lt⟩ => h.elim (Int.not_lt.mpr nonneg) (Int.not_le.mpr lt)

/-- Where what follows a check raises InvalidAddress, so does the whole, whether the check passes or fails. -/
theorem checkReg_andThen_raised {α : Type} {a : Nat} {s : State} {k : Nat → State → Res α}
    (h : k a s = .raised .invalidAddress s) : (checkReg a s).andThen k = .raised .invalidAddress s := by
  rcases checkReg_cases a s with ⟨-, passes⟩ | ⟨-, fails⟩
  · rw [passes, Res.andThen_ok, h]
  · rw [fails, Res.andThen_raised]

theorem checkMem_andThen_raised {α : Type} {a : Nat} {s : State} {k : Nat → State → Res α}
    (h : k a s = .raised .invalidAddress s) : (checkMem a s).andThen k = .raised .invalidAddress s := by
  rcases checkMem_cases a s with ⟨-, passes⟩ | ⟨-, fails⟩
  · rw [passes, Res.andThen_ok, Int.toNat_natCast, h]
  · rw [fails, Res.andThen_raised]

/-! ### The modes as the checks they make -/

theorem resolve_reg (o : Nat) (s : State) :
    resolve (.reg o) s = (checkReg o s).andThen fun a s => .ok (.reg a) s := rfl

theorem resolve_direct (o : Nat) (s : State) :
    resolve (.direct o) s = (checkMem o s).andThen fun a s => .ok (.mem a) s := rfl

theorem resolve_regInd (o : Nat) (s : State) :
    resolve (.regInd o) s =
      (checkReg o s).andThen fun a s => (checkMem (s.readReg a).signed s).andThen fun ea s => .ok (.mem ea) s := rfl

theorem resolve_ind (o : Nat) (s : State) :
    resolve (.ind o) s =
      (checkMem o s).andThen fun a s => (checkMem (s.readMem a).signed s).andThen fun ea s => .ok (.mem ea) s := rfl

/-- The immediate field is zero-extended (30_encoding.md R76). -/
theorem resolve_imm (v : BitVec 8) (s : State) : resolve (.imm v.toNat) s = .ok (.imm (v.zeroExtend 32)) s :=
  congrArg (fun c => Res.ok (Loc.imm c) s) (BitVec.ofNat_toNat 32 v)

end Sys2Proof.Machine

open Sys2Proof.Machine

/-- Settles O6: each of the two direct modes is its one check; the immediate mode makes none. -/
theorem registerImmediateAndDirectModes : Obligations.RegisterImmediateAndDirectModes := by
  refine ⟨fun o s => ⟨fun inside => ?_, fun outside => ?_⟩, fun v c s => ⟨resolve_imm v s, write_imm _ c s⟩,
    fun o s => ⟨fun inside => ?_, fun outside => ?_⟩⟩
  · rw [resolve_reg, checkReg_of_lt inside, Res.andThen_ok]
  · rw [resolve_reg, checkReg_of_le outside, Res.andThen_raised]
  · rw [resolve_direct, checkMem_of_lt inside, Res.andThen_ok]
  · rw [resolve_direct, checkMem_of_outside (.inr (Int.ofNat_le.mpr outside)), Res.andThen_raised]

/-- Settles O7: an indirect mode is the check of its field and then the check of the pointer read there; a bad pointer gives
InvalidAddress whichever of the two fails first. -/
theorem indirectModes : Obligations.IndirectModes := by
  refine ⟨fun o s => ⟨fun inside a cell pointer => ?_, fun outside => ?_, fun badPointer => ?_⟩,
    fun o s => ⟨fun inside a cell pointer => ?_, fun outside => ?_, fun badPointer => ?_⟩⟩
  · rw [resolve_regInd, checkReg_of_lt inside, Res.andThen_ok, pointer, checkMem_of_lt cell, Res.andThen_ok]
  · rw [resolve_regInd, checkReg_of_le outside, Res.andThen_raised]
  · rw [resolve_regInd]
    exact checkReg_andThen_raised (by rw [checkMem_of_outside badPointer, Res.andThen_raised])
  · rw [resolve_ind, checkMem_of_lt inside, Res.andThen_ok, pointer, checkMem_of_lt cell, Res.andThen_ok]
  · rw [resolve_ind, checkMem_of_outside (.inr (Int.ofNat_le.mpr outside)), Res.andThen_raised]
  · rw [resolve_ind]
    exact checkMem_andThen_raised (by rw [checkMem_of_outside badPointer, Res.andThen_raised])

end

section
/-! PROOFS. The statements of 42_pure_control.md: PRNT (R161) and EOP (R162). -/

open Sys2Proof Sys2Proof.Machine Sys2Proof.Statements

namespace Sys2Proof

/-! ### The match value of an instruction -/

/-- The match value of a row of 30_encoding.md R80: its class and category, with the operand fields and bits 2:0 zero. -/
def Opcode.matchWord (o : Opcode) : Word := o.cls.code ++ o.category ++ 0#25

/-- The class and the category of a word, put back in their places, are its bits 31:25. -/
theorem opcodeBits_of_fields (w : Word) : classBits w ++ categoryBits w ++ 0#25 = w &&& 0xFE000000#32 := by
  apply BitVec.eq_of_getLsbD_eq
  intro i hi
  simp only [classBits, categoryBits, BitVec.getLsbD_extractLsb', BitVec.getLsbD_append, BitVec.getLsbD_and]
  interval_cases i <;> simp

/-- The operands leave no trace in bits 31:25 of an instruction's word. -/
theorem encode_and_opcodeMask (i : Instr) : encode i &&& 0xFE000000#32 = i.opcode.matchWord := by
  obtain ⟨hc, hk, -⟩ := Laws.EncodesItsOpcode.of_parts i
  rw [← opcodeBits_of_fields, hc, hk, Opcode.matchWord]

/-- A constructor of one mnemonic has that mnemonic's match value. -/
theorem hasMatch_of_opcode {mk : Operand → Operand → Instr} {o : Opcode} (h : ∀ f1 f2, (mk f1 f2).opcode = o) :
    HasMatch mk o.matchWord := fun f1 f2 => by
  rw [encode_and_opcodeMask, h]

end Sys2Proof

namespace Sys2Proof.Machine

/-! ### The two instructions -/

theorem exec_prnt (f1 f2 : Operand) (s : State) :
    exec (.prnt f1 f2) s = finish ((resolve f1 s).andThen fun l s => .ok () (s.emit (value l s))) := rfl

theorem exec_eop (f1 f2 : Operand) (s : State) : exec (.eop f1 f2) s = .next s.halt := rfl

/-! ### The step that runs an instruction, and the step of a stopped core -/

theorem decodeAndRun_of_decode {s : State} {i : Instr} (h : decode s.w = .ok i) : decodeAndRun s = exec i s := by
  simp only [decodeAndRun, h]

/-- A ready core's step runs the instruction at PC in the state after FETCH. -/
theorem step_of_ready_of_decode {s : State} {i : Instr} (ready : Ready s) (h : decode (wordAtPC s) = .ok i) :
    step s = exec i (s.fetched (pcCell s)) := by
  rw [step_of_ready ready]
  exact decodeAndRun_of_decode h

/-- A core that is not RUNNING stays as it is (41_execution_engine.md R140). -/
theorem eq_of_step_of_not_running {s t : State} (h : step s = .next t) (stopped : s.run ≠ .running) : t = s := by
  obtain ⟨-, ⟨-, same⟩ | ⟨hrun, -⟩ | ⟨hrun, -⟩ | ⟨hrun, -⟩⟩ := step_cases h
  · exact same
  all_goals exact absurd hrun stopped

/-! ### PC and IR after FETCH -/

theorem wrap_pcCell {s : State} (ready : Ready s) : wrap (pcCell s) = s.readReg Reg.PC := by
  obtain ⟨-, -, -, nonneg, -⟩ := ready
  rw [pcCell, Int.toNat_of_nonneg nonneg, wrap_signed]

theorem fetched_pcCell_readReg_PC {s : State} (ready : Ready s) :
    (s.fetched (pcCell s)).readReg Reg.PC = s.readReg Reg.PC + 1#32 := by
  rw [fetched_readReg, if_pos rfl, wrap_add, wrap_pcCell ready, wrap_one]

theorem fetched_pcCell_readReg_IR {s : State} (ready : Ready s) :
    (s.fetched (pcCell s)).readReg Reg.IR = s.readReg Reg.PC := by
  rw [fetched_readReg, if_neg (by decide), if_pos rfl, wrap_pcCell ready]

end Sys2Proof.Machine

/-- Settles O15: PRNT is one resolved field and then `emit`; the all-zero word is the word that PRNT of register 0 encodes
to. -/
theorem prntSendsTheValue : Obligations.PrntSendsTheValue := by
  refine ⟨hasMatch_of_opcode (o := .PRNT) fun _ _ => rfl, decode_encode (.prnt (.reg Reg.PC) (.reg 0)) rfl,
    fun f1 f2 s => ⟨fun fails => ?_, fun l1 s1 resolves => ?_⟩⟩
  · rw [exec_prnt, fails, Res.andThen_raised, finish_raised]
  · rw [exec_prnt, resolves, Res.andThen_ok, finish_ok, State.emit]

/-- Settles O16: the step that runs EOP ends in the state after FETCH, halted, so PC and IR are as FETCH leaves them and the
next step finds a stopped core. -/
theorem eopHaltsTheCore : Obligations.EopHaltsTheCore := by
  refine ⟨hasMatch_of_opcode (o := .EOP) fun _ _ => rfl, exec_eop, fun f1 f2 s ready decodes => ?_⟩
  refine ⟨(s.fetched (pcCell s)).halt, ?_, halt_run _, ?_, ?_, fun u again => ?_⟩
  · rw [step_of_ready_of_decode ready decodes, exec_eop]
  · rw [halt_readReg, fetched_pcCell_readReg_PC ready]
  · rw [halt_readReg, fetched_pcCell_readReg_IR ready]
  · exact eq_of_step_of_not_running again (by rw [halt_run]; decide)

end

section
/-! PROOFS. The statements of 43_write_only.md on MOV (R171), PUSH (R172) and POP (R173). -/

open Sys2Proof Sys2Proof.Machine Sys2Proof.Statements

namespace Sys2Proof.Machine

/-! ### The stack sub-operations, in the spelling of their rules -/

theorem stackPush_of_gt {s : State} (full : (s.readReg Reg.TSP).signed + 1 > s.cfg.stackLimit) :
    stackPush s = .raised .stackOverflow s := if_pos full

theorem stackPush_of_neg {s : State} (room : (s.readReg Reg.TSP).signed + 1 ≤ s.cfg.stackLimit)
    (neg : (s.readReg Reg.TSP).signed + 1 < 0) : stackPush s = .raised .invalidAddress s := by
  rw [stackPush, if_neg (Int.not_lt.mpr room), checkMem_of_outside (.inl neg), Res.andThen_raised]

/-- An admissible configuration keeps STACK_LIMIT below MEM_SIZE, so the limit alone bounds a new top from above
(00_scope.md R6). -/
theorem inMem_of_le_stackLimit {c : Config} {t : Int} (admissible : c.wf = true) (nonneg : 0 ≤ t)
    (room : t ≤ c.stackLimit) : InMem c t := by
  obtain ⟨-, -, -, -, -, limit⟩ := config_bounds admissible
  exact ⟨nonneg, Int.lt_of_le_sub_one (room.trans limit)⟩

theorem stackPush_of_inMem {s : State} (room : (s.readReg Reg.TSP).signed + 1 ≤ s.cfg.stackLimit)
    (cell : InMem s.cfg ((s.readReg Reg.TSP).signed + 1)) :
    stackPush s = .ok (.mem ((s.readReg Reg.TSP).signed + 1).toNat)
      (s.writeReg Reg.TSP (s.readReg Reg.TSP + 1#32)) := by
  rw [stackPush, if_neg (Int.not_lt.mpr room), checkMem_of_inMem cell, Res.andThen_ok, wrap_signed_succ]

theorem stackPop_of_lt {s : State} (empty : (s.readReg Reg.TSP).signed < (s.readReg Reg.SPR).signed) :
    stackPop s = .raised .stackUnderflow s := if_pos empty

theorem stackPop_of_not_inMem {s : State} (nonempty : (s.readReg Reg.SPR).signed ≤ (s.readReg Reg.TSP).signed)
    (noCell : ¬ InMem s.cfg (s.readReg Reg.TSP).signed) : stackPop s = .raised .invalidAddress s := by
  rw [stackPop, if_neg (Int.not_lt.mpr nonempty), checkMem_of_not_inMem noCell, Res.andThen_raised]

theorem stackPop_of_inMem {s : State} (nonempty : (s.readReg Reg.SPR).signed ≤ (s.readReg Reg.TSP).signed)
    (cell : InMem s.cfg (s.readReg Reg.TSP).signed) :
    stackPop s = .ok (.mem (s.readReg Reg.TSP).signed.toNat) (s.writeReg Reg.TSP (s.readReg Reg.TSP - 1#32)) := by
  rw [stackPop, if_neg (Int.not_lt.mpr nonempty), checkMem_of_inMem cell, Res.andThen_ok, wrap_signed_pred]

/-! ### The shared parts of an instruction's rule -/

/-- An instruction that begins by resolving both fields takes their faults, field 1 first. -/
theorem fieldFaults_of_exec {i : Instr} {f1 f2 : Operand} {s : State} {k : Loc → Loc → State → Res Unit}
    (h : exec i s = finish ((resolve f1 s).andThen fun l1 s => (resolve f2 s).andThen (k l1))) :
    FieldFaults i f1 f2 s := by
  refine ⟨fun fails1 => ?_, fun l1 s1 resolves1 fails2 => ?_⟩
  · rw [h, fails1, Res.andThen_raised, finish_raised]
  · rw [h, resolves1, Res.andThen_ok, fails2, Res.andThen_raised, finish_raised]

/-- An instruction that comes down to one write does what the kind of its destination says. -/
theorem writesResult_of_exec {i : Instr} {s t : State} {l : Loc} {v : Word}
    (h : exec i s = finish (write l v t)) : WritesResult i s l v t := by
  refine ⟨fun a isReg => ?_, fun a isMem => ?_, fun c isImm => ?_⟩
  · rw [h, isReg, write_reg, finish_ok]
  · rw [h, isMem, write_mem, finish_ok]
  · rw [h, isImm, write_imm, finish_raised]

/-! ### The three instructions -/

theorem exec_mov (f1 f2 : Operand) (s : State) :
    exec (.mov f1 f2) s = finish ((resolve f1 s).andThen fun l1 s =>
      (resolve f2 s).andThen fun l2 s => write l2 (value l1 s) s) := rfl

theorem exec_push (f1 f2 : Operand) (s : State) :
    exec (.push f1 f2) s = finish ((resolve f1 s).andThen fun l1 s =>
      (stackPush s).andThen fun ls s => write ls (value l1 s) s) := rfl

theorem exec_pop (f1 f2 : Operand) (s : State) :
    exec (.pop f1 f2) s = finish ((resolve f1 s).andThen fun l1 s =>
      (stackPop s).andThen fun ls s => write l1 (value ls s) s) := rfl

end Sys2Proof.Machine

/-- Settles O17: with both fields resolved MOV is one write, of field 1's value in the state after both. -/
theorem movCopiesField1ToField2 : Obligations.MovCopiesField1ToField2 := by
  refine ⟨hasMatch_of_opcode (o := .MOV) fun _ _ => rfl, fun f1 f2 s =>
    ⟨fieldFaults_of_exec (exec_mov f1 f2 s), fun l1 s1 l2 s2 resolves1 resolves2 => writesResult_of_exec ?_⟩⟩
  rw [exec_mov, resolves1, Res.andThen_ok, resolves2, Res.andThen_ok]

/-- Settles O18: after field 1 PUSH is the stack sub-operation, whose three outcomes are the three clauses; where it
succeeds, the write to the new top cannot fail. -/
theorem pushMovesTspThenWrites : Obligations.PushMovesTspThenWrites := by
  refine ⟨hasMatch_of_opcode (o := .PUSH) fun _ _ => rfl,
    fun f1 f2 s => ⟨fun fails => ?_, fun l1 s1 resolves => ?_⟩⟩
  · rw [exec_push, fails, Res.andThen_raised, finish_raised]
  rw [exec_push, resolves, Res.andThen_ok]
  refine ⟨fun full => ?_, fun room neg => ?_, fun admissible room nonneg => ?_⟩
  · rw [stackPush_of_gt full, Res.andThen_raised, finish_raised]
  · rw [stackPush_of_neg room neg, Res.andThen_raised, finish_raised]
  · have cell := inMem_of_le_stackLimit admissible nonneg room
    rw [stackPush_of_inMem room cell, Res.andThen_ok, write_mem, finish_ok]

/-- Settles O19: after field 1 POP is the stack sub-operation, whose three outcomes are the three clauses; where it
succeeds, what remains is one write of the old top, which moving TSP did not touch. -/
theorem popMovesTspThenWrites : Obligations.PopMovesTspThenWrites := by
  refine ⟨hasMatch_of_opcode (o := .POP) fun _ _ => rfl, fun f1 f2 s => ⟨fun fails => ?_, fun l1 s1 resolves =>
    ⟨fun empty => ?_, fun nonempty noCell => ?_, fun nonempty cell => writesResult_of_exec ?_⟩⟩⟩
  · rw [exec_pop, fails, Res.andThen_raised, finish_raised]
  · rw [exec_pop, resolves, Res.andThen_ok, stackPop_of_lt empty, Res.andThen_raised, finish_raised]
  · rw [exec_pop, resolves, Res.andThen_ok, stackPop_of_not_inMem nonempty noCell, Res.andThen_raised, finish_raised]
  · rw [exec_pop, resolves, Res.andThen_ok, stackPop_of_inMem nonempty cell, Res.andThen_ok, value_mem,
      writeReg_readMem]

end

section
/-! PROOFS. The statements of 45_arithmetic.md on what an arithmetic instruction does: ADD, SUB and MUL (R213 to R215), MOD
and DIV (R212, R216). -/

open Sys2Proof Sys2Proof.Machine Sys2Proof.Statements

namespace Sys2Proof

theorem Word.signed_eq_zero_iff (x : Word) : x.signed = 0 ↔ x = 0 := by
  rw [← BitVec.toInt_inj, BitVec.ofNat_eq_ofNat, BitVec.toInt_zero]

end Sys2Proof

namespace Sys2Proof.Machine

/-! ### The five instructions and their operations -/

theorem exec_mod (f1 f2 : Operand) (s : State) : exec (.mod f1 f2) s = arith opMod f1 f2 s := rfl

theorem exec_add (f1 f2 : Operand) (s : State) : exec (.add f1 f2) s = arith opAdd f1 f2 s := rfl

theorem exec_sub (f1 f2 : Operand) (s : State) : exec (.sub f1 f2) s = arith opSub f1 f2 s := rfl

theorem exec_mul (f1 f2 : Operand) (s : State) : exec (.mul f1 f2) s = arith opMul f1 f2 s := rfl

theorem exec_div (f1 f2 : Operand) (s : State) : exec (.div f1 f2) s = arith opDiv f1 f2 s := rfl

theorem opMod_zero (p : Int) : opMod p 0 = .error .divisionByZero := if_pos rfl

theorem opMod_of_ne_zero (p : Int) {q : Int} (h : q ≠ 0) : opMod p q = .ok (p - q * p.tdiv q) := if_neg h

theorem opDiv_zero (p : Int) : opDiv p 0 = .error .divisionByZero := if_pos rfl

theorem opDiv_of_ne_zero (p : Int) {q : Int} (h : q ≠ 0) : opDiv p q = .ok (p.tdiv q) := if_neg h

@[simp] theorem compute_ok (r : Int) (s : State) : compute (.ok r) s = .ok r s := rfl

@[simp] theorem compute_error (f : FaultKind) (s : State) : compute (.error f) s = .raised f s := rfl

/-! ### The common form (R210), its fields resolved -/

section
variable {op : ArithOp} {f1 f2 : Operand} {s s1 s2 : State} {l1 l2 : Loc}

/-- A result computed, what remains of the common form is its one write, to field 1's location. -/
theorem arith_of_ok (resolves1 : resolve f1 s = .ok l1 s1) (resolves2 : resolve f2 s1 = .ok l2 s2) {r : Int}
    (computes : op (value l1 s2).signed (value l2 s2).signed = .ok r) :
    arith op f1 f2 s = finish (write l1 (wrap r) s2) := by
  rw [arith_resolved resolves1 resolves2, computes, compute_ok, Res.andThen_ok]

/-- A fault of the computation comes before the write, so `l1` does not matter. -/
theorem arith_of_error (resolves1 : resolve f1 s = .ok l1 s1) (resolves2 : resolve f2 s1 = .ok l2 s2) {f : FaultKind}
    (fails : op (value l1 s2).signed (value l2 s2).signed = .error f) :
    arith op f1 f2 s = .next (takeFault f s2) := by
  rw [arith_resolved resolves1 resolves2, fails, compute_error, Res.andThen_raised, finish_raised]

end

/-! ### The rules of the two groups -/

section
variable {mk : Operand → Operand → Instr} {op : ArithOp} {result : Int → Int → Int}

/-- An instruction of the common form whose operation always has a result. -/
theorem arithRule_of_exec (runs : ∀ f1 f2 s, exec (mk f1 f2) s = arith op f1 f2 s)
    (computes : ∀ p q, op p q = .ok (result p q)) : ArithRule mk result := by
  refine fun f1 f2 s => ⟨fieldFaults_of_exec (runs f1 f2 s), fun l1 s1 l2 s2 resolves1 resolves2 =>
    writesResult_of_exec ?_⟩
  rw [runs, arith_of_ok resolves1 resolves2 (computes _ _)]

/-- An instruction of the common form whose operation fails exactly at a zero right value. -/
theorem divRule_of_exec (runs : ∀ f1 f2 s, exec (mk f1 f2) s = arith op f1 f2 s)
    (fails : ∀ p, op p 0 = .error .divisionByZero) (computes : ∀ p q, q ≠ 0 → op p q = .ok (result p q)) :
    DivRule mk result := by
  refine fun f1 f2 s => ⟨fieldFaults_of_exec (runs f1 f2 s), fun l1 s1 l2 s2 resolves1 resolves2 =>
    ⟨fun zero => ?_, fun nonzero => writesResult_of_exec ?_⟩⟩
  · have signedZero : (value l2 s2).signed = 0 := (Word.signed_eq_zero_iff _).mpr zero
    rw [runs, arith_of_error resolves1 resolves2 (by rw [signedZero, fails])]
  · have signedNonzero : (value l2 s2).signed ≠ 0 := mt (Word.signed_eq_zero_iff _).mp nonzero
    rw [runs, arith_of_ok resolves1 resolves2 (computes _ _ signedNonzero)]

end

end Sys2Proof.Machine

/-- Settles O29: the three run the common form, with an operation that always has a result. -/
theorem addSubMulWriteTheResult : Obligations.AddSubMulWriteTheResult :=
  ⟨hasMatch_of_opcode (o := .ADD) fun _ _ => rfl, arithRule_of_exec exec_add fun _ _ => rfl,
    hasMatch_of_opcode (o := .SUB) fun _ _ => rfl, arithRule_of_exec exec_sub fun _ _ => rfl,
    hasMatch_of_opcode (o := .MUL) fun _ _ => rfl, arithRule_of_exec exec_mul fun _ _ => rfl⟩

/-- Settles O30: the two run the common form, with an operation that fails exactly at a zero right value, and a word is zero
exactly where its signed value is. -/
theorem modDivWriteTheResult : Obligations.ModDivWriteTheResult :=
  ⟨hasMatch_of_opcode (o := .MOD) fun _ _ => rfl,
    divRule_of_exec exec_mod opMod_zero fun p _ nonzero => opMod_of_ne_zero p nonzero,
    hasMatch_of_opcode (o := .DIV) fun _ _ => rfl,
    divRule_of_exec exec_div opDiv_zero fun p _ nonzero => opDiv_of_ne_zero p nonzero⟩

end

section
/-! PROOFS. The statements of 60_exceptions.md: taking a fault (R240). -/

open Sys2Proof Sys2Proof.Machine Sys2Proof.Statements

namespace Sys2Proof.Machine

theorem fltCode_of_flt {s : State} {f : FaultKind} (h : s.flt = some f) : s.fltCode = f.code := by
  rw [State.fltCode, h]

/-- Load and start need an idle core and supply a running one, so a faulted core is left to reset (00_scope.md R16). -/
theorem eq_reset_of_hostAct_of_faulted {a : HostAction} {s t : State} (h : hostAct a s = some t)
    (faulted : s.run = .faulted) : ∃ supplied, a = .reset supplied := by
  have notIdle : s.run ≠ .idle := by simp [faulted]
  have notRunning : s.run ≠ .running := by simp [faulted]
  obtain ⟨supplied, isReset, -⟩ | ⟨_, _, _, -, idle, -⟩ | ⟨-, idle, -⟩ | ⟨_, -, running, -⟩ := hostAct_cases h
  · exact ⟨supplied, isReset⟩
  · exact absurd idle notIdle
  · exact absurd idle notIdle
  · exact absurd running notRunning

theorem takeFault_run_ne_running (f : FaultKind) (s : State) : (takeFault f s).run ≠ .running := by
  simp

end Sys2Proof.Machine

/-- Settles O39: the end of the step is `takeFault`, which keeps every field but RUN and FLT; a faulted core is not running,
so its steps change nothing, and of the host's actions it allows only reset. -/
theorem takingAFaultSetsRunAndFltOnly : Obligations.TakingAFaultSetsRunAndFltOnly := by
  intro f s
  have channels : SameChannels s (takeFault f s) :=
    ⟨takeFault_out s f, takeFault_input s f, takeFault_scanWait s f⟩
  refine ⟨fun α β k => Res.andThen_raised f s k, takeFault f s, finish_raised f s, takeFault_run s f,
    fltCode_of_flt (takeFault_flt s f), takeFault_regs s f, takeFault_mem s f, takeFault_cfg s f, takeFault_w s f,
    channels, fun u steps => ?_, fun a u acts => ?_⟩
  · exact eq_of_step_of_not_running steps (takeFault_run_ne_running f s)
  · exact eq_reset_of_hostAct_of_faulted acts (takeFault_run s f)

end

section
/-! PROOFS. What an instruction can do, said once for all 21 (41_execution_engine.md R145): the registers that move on the
way, then one write, a transfer, a use of a channel, or a fault. -/

open Sys2Proof Sys2Proof.Machine Sys2Proof.Statements

namespace Sys2Proof.Statements

theorem SameButArrays.rfl {s : State} : SameButArrays s s := ⟨by rfl, by rfl, by rfl, by rfl, by rfl, by rfl, by rfl⟩

theorem SameButArrays.trans {s t u : State} (h₁ : SameButArrays s t) (h₂ : SameButArrays t u) : SameButArrays s u := by
  obtain ⟨cfg₁, run₁, flt₁, out₁, input₁, w₁, wait₁⟩ := h₁
  obtain ⟨cfg₂, run₂, flt₂, out₂, input₂, w₂, wait₂⟩ := h₂
  exact ⟨cfg₂.trans cfg₁, run₂.trans run₁, flt₂.trans flt₁, out₂.trans out₁, input₂.trans input₁, w₂.trans w₁,
    wait₂.trans wait₁⟩

end Sys2Proof.Statements

namespace Sys2Proof.Machine

/-! ### Moving registers -/

/-- `t` is `s` but for the registers in `rs` and those that resolving the fields in `fs` moves, none of them outside the
array. -/
structure Moves (rs : List Nat) (fs : List Operand) (s t : State) : Prop where
  others : SameButArrays s t
  mem : t.mem = s.mem
  regs : SameRegsBut rs fs s t
  canonical : s.cfg.wf = true → Registers.wf s = true → Registers.wf t = true

section
variable {rs : List Nat} {fs : List Operand} {s t u : State}

theorem Moves.cfg (h : Moves rs fs s t) : t.cfg = s.cfg := by
  obtain ⟨e, -⟩ := h.others
  exact e

theorem Moves.run (h : Moves rs fs s t) : t.run = s.run := by
  obtain ⟨-, e, -⟩ := h.others
  exact e

theorem Moves.flt (h : Moves rs fs s t) : t.flt = s.flt := by
  obtain ⟨-, -, e, -⟩ := h.others
  exact e

theorem Moves.out (h : Moves rs fs s t) : t.out = s.out := by
  obtain ⟨-, -, -, e, -⟩ := h.others
  exact e

theorem Moves.input (h : Moves rs fs s t) : t.input = s.input := by
  obtain ⟨-, -, -, -, e, -⟩ := h.others
  exact e

theorem Moves.w (h : Moves rs fs s t) : t.w = s.w := by
  obtain ⟨-, -, -, -, -, e, -⟩ := h.others
  exact e

theorem Moves.scanWait (h : Moves rs fs s t) : t.scanWait = s.scanWait := by
  obtain ⟨-, -, -, -, -, -, e⟩ := h.others
  exact e

theorem Moves.rfl : Moves rs fs s s := ⟨.rfl, by rfl, fun _ _ _ => by rfl, fun _ h => h⟩

theorem Moves.trans (h₁ : Moves rs fs s t) (h₂ : Moves rs fs t u) : Moves rs fs s u where
  others := h₁.others.trans h₂.others
  mem := h₂.mem.trans h₁.mem
  regs r hr hf := (h₂.regs r hr hf).trans (h₁.regs r hr hf)
  canonical hw hc := h₂.canonical (h₁.cfg ▸ hw) (h₁.canonical hw hc)

/-- Every admissible configuration has the 32 registers of the map (10_state.md R21). -/
theorem lt_nreg_of_lt {c : Config} {a : Nat} (admissible : c.wf = true) (h : a < 32) : a < c.nreg := by
  obtain ⟨nreg, -⟩ := config_bounds admissible
  exact Nat.lt_of_lt_of_le h nreg

/-- A write to a listed register that every admissible configuration has. -/
theorem Moves.writeReg {a : Nat} (v : Word) (listed : a ∈ rs) (special : a < 32) : Moves rs fs s (s.writeReg a v) where
  others := .rfl
  mem := by rfl
  regs r hr _ := writeReg_readReg_ne s v fun e => hr (e ▸ listed)
  canonical hw hc := writeReg_canonical v hc (lt_nreg_of_lt hw special)

theorem Moves.writeTSP (v : Word) (listed : Reg.TSP ∈ rs) : Moves rs fs s (s.writeReg Reg.TSP v) :=
  .writeReg v listed (by decide)

theorem Moves.writePC (v : Word) (listed : Reg.PC ∈ rs) : Moves rs fs s (s.writeReg Reg.PC v) :=
  .writeReg v listed (by decide)

/-- Resolving a listed field moves nothing but the register it names in mode 101 (40_addressing_resolver.md R117). -/
theorem Moves.resolve {o : Operand} {l : Loc} (listed : o ∈ fs) (h : resolve o s = .ok l t) : Moves rs fs s t := by
  obtain fails | ⟨l', ok, -, -⟩ | ⟨a, v, w, ok, inside, auto⟩ := resolve_cases o s
  · simp [h] at fails
  · obtain ⟨-, same⟩ : l = l' ∧ t = s := by simpa [h] using ok
    exact same ▸ .rfl
  · obtain ⟨-, moved⟩ : l = .imm v ∧ t = s.writeReg a w := by simpa [h] using ok
    subst moved
    exact {
      others := .rfl
      mem := by rfl
      regs := fun r _ hf => writeReg_readReg_ne s w fun e => hf o listed (e ▸ auto)
      canonical := fun _ hc => writeReg_canonical w hc inside }

end

/-! ### What a resolved field names -/

section
variable {o : Operand} {l : Loc} {s t : State} {a : Nat} {f : FaultKind}

theorem inRange_of_resolve (h : resolve o s = .ok l t) : l.inRange s.cfg = true := by
  obtain fails | ⟨l', ok, inside, -⟩ | ⟨a, v, w, ok, -⟩ := resolve_cases o s
  · simp [h] at fails
  · obtain ⟨same, -⟩ : l = l' ∧ t = s := by simpa [h] using ok
    exact same ▸ inside
  · obtain ⟨captured, -⟩ : l = .imm v ∧ t = s.writeReg a w := by simpa [h] using ok
    exact captured ▸ rfl

theorem eq_of_resolve_raised (h : resolve o s = .raised f t) : f = .invalidAddress ∧ t = s := by
  obtain fails | ⟨_, ok, -⟩ | ⟨_, _, _, ok, -⟩ := resolve_cases o s
  · simpa [h] using fails
  · simp [h] at ok
  · simp [h] at ok

/-- Only mode 000 names a register as a location. -/
theorem eq_reg_of_resolve (h : resolve o s = .ok (.reg a) t) : o = .reg a := by
  cases o with
  | reg b =>
    obtain ⟨c, s', check, h⟩ := Res.andThen_eq_ok h
    obtain ⟨-, ok⟩ | ⟨-, fails⟩ := checkReg_cases b s
    · simp_all
    · simp [fails] at check
  | regInd b =>
    obtain ⟨_, _, -, h⟩ := Res.andThen_eq_ok h
    obtain ⟨_, _, -, h⟩ := Res.andThen_eq_ok h
    cases h
  | imm v => cases h
  | ind b =>
    obtain ⟨_, _, -, h⟩ := Res.andThen_eq_ok h
    obtain ⟨_, _, -, h⟩ := Res.andThen_eq_ok h
    cases h
  | idx b =>
    obtain ⟨_, _, -, h⟩ := Res.andThen_eq_ok h
    obtain ⟨_, _, -, h⟩ := Res.andThen_eq_ok h
    cases h
  | auto d b =>
    obtain ⟨_, _, -, h⟩ := Res.andThen_eq_ok h
    cases d <;> cases h
  | direct b =>
    obtain ⟨_, _, -, h⟩ := Res.andThen_eq_ok h
    cases h
  | stack b => cases h

end

end Sys2Proof.Machine

namespace Sys2Proof

open Sys2Proof.Machine

/-! ### The parts of an instruction -/

/-- The fields an instruction resolves (30_encoding.md R81). -/
def Instr.usedFields : Instr → List Operand
  | .eop _ _ | .ret _ _ => []
  | .prnt f1 _ | .push f1 _ | .pop f1 _ | .top f1 _ | .call f1 _ | .scan f1 _ | .jmp f1 _ => [f1]
  | .mov f1 f2 | .jeq f1 f2 | .jne f1 f2 | .jlt f1 f2 | .jle f1 f2 | .jgt f1 f2 | .jge f1 f2
  | .mod f1 f2 | .add f1 f2 | .sub f1 f2 | .mul f1 f2 | .div f1 f2 => [f1, f2]

/-- The registers an instruction writes by its own meaning: TSP of the stack instructions, PC of the transfers. -/
def Instr.pointers : Instr → List Nat
  | .push _ _ | .pop _ _ => [Reg.TSP]
  | .call _ _ | .ret _ _ => [Reg.TSP, Reg.PC]
  | .jeq _ _ | .jne _ _ | .jlt _ _ | .jle _ _ | .jgt _ _ | .jge _ _ | .jmp _ _ => [Reg.PC]
  | .prnt _ _ | .eop _ _ | .mov _ _ | .top _ _ | .scan _ _ | .mod _ _ | .add _ _ | .sub _ _ | .mul _ _ | .div _ _ => []

/-- The location an instruction writes its result to: that of its destination field, or the cell above the top of the
stack. -/
def Instr.Destination (i : Instr) (s : State) (l : Loc) : Prop :=
  match i with
  | .mov f1 f2 => ∃ l1 s1 s2, resolve f1 s = .ok l1 s1 ∧ resolve f2 s1 = .ok l s2
  | .pop f1 _ | .top f1 _ | .scan f1 _ | .mod f1 _ | .add f1 _ | .sub f1 _ | .mul f1 _ | .div f1 _ =>
    ∃ s1, resolve f1 s = .ok l s1
  | .push f1 _ | .call f1 _ =>
    ∃ l1 s1, resolve f1 s = .ok l1 s1 ∧ InMem s1.cfg ((s1.readReg Reg.TSP).signed + 1) ∧
      l = .mem ((s1.readReg Reg.TSP).signed + 1).toNat
  | .prnt _ _ | .eop _ _ | .ret _ _ | .jeq _ _ | .jne _ _ | .jlt _ _ | .jle _ _ | .jgt _ _ | .jge _ _ | .jmp _ _ => False

/-- The registers an instruction may move before its result is written or its fault is raised. -/
abbrev Instr.Moves (i : Instr) : State → State → Prop := Machine.Moves i.pointers i.usedFields

end Sys2Proof

namespace Sys2Proof.Machine

theorem inRange_of_destination {i : Instr} {s : State} {l : Loc} (h : i.Destination s l) : l.inRange s.cfg = true := by
  have top {f1 : Operand} (h : ∃ l1 s1, resolve f1 s = .ok l1 s1 ∧ InMem s1.cfg ((s1.readReg Reg.TSP).signed + 1) ∧
      l = .mem ((s1.readReg Reg.TSP).signed + 1).toNat) : l.inRange s.cfg = true := by
    obtain ⟨l1, s1, resolves, cell, rfl⟩ := h
    have moves : Moves [] [f1] s s1 := .resolve (by simp) resolves
    simpa [Loc.inRange, moves.cfg] using cell.toNat_lt
  cases i with
  | mov f1 f2 =>
    obtain ⟨l1, s1, s2, resolves1, resolves2⟩ := h
    have moves : Moves [] [f1] s s1 := .resolve (by simp) resolves1
    exact moves.cfg ▸ inRange_of_resolve resolves2
  | push f1 _ => exact top h
  | call f1 _ => exact top h
  | pop _ _ | top _ _ | scan _ _ | mod _ _ | add _ _ | sub _ _ | mul _ _ | div _ _ =>
    obtain ⟨s1, resolves⟩ := h
    exact inRange_of_resolve resolves
  | prnt _ _ | eop _ _ | ret _ _ | jeq _ _ | jne _ _ | jlt _ _ | jle _ _ | jgt _ _ | jge _ _ | jmp _ _ => cases h

/-! ### What an instruction can do -/

/-- The ways an instruction run in `s` can come out. -/
inductive Ran (i : Instr) (s : State) : State → Prop where
  | moved {t : State} (moves : i.Moves s t) : Ran i s t
  | stored {l : Loc} {v : Word} {u t : State} (moves : i.Moves s u) (dest : i.Destination s l)
      (writes : write l v u = .ok () t) : Ran i s t
  | faulted {f : FaultKind} {u : State} (moves : i.Moves s u) (listed : f ∈ mayRaise i) : Ran i s (takeFault f u)
  | printed {f1 f2 : Operand} {v : Word} {u : State} (isPrnt : i = .prnt f1 f2) (moves : i.Moves s u) :
      Ran i s (u.emit v)
  | halted {f1 f2 : Operand} (isEop : i = .eop f1 f2) : Ran i s s.halt
  | waits {f1 f2 : Operand} {l : Loc} {u : State} (isScan : i = .scan f1 f2) (empty : s.input = []) (moves : i.Moves s u)
      (dest : i.Destination s l) : Ran i s (u.awaitInput l)
  | took {f1 f2 : Operand} {l : Loc} {v : Word} {rest : List Word} {u t : State} (isScan : i = .scan f1 f2)
      (offered : s.input = v :: rest) (moves : i.Moves s u) (dest : i.Destination s l)
      (ends : finish (write l v (u.tookInput rest)) = .next t) : Ran i s t

section
variable {i : Instr} {f1 f2 : Operand} {s t u : State} {l : Loc} {v : Word}

/-- An instruction that comes down to the write of its result. -/
theorem Ran.of_write (moves : i.Moves s u) (dest : i.Destination s l) (listed : .immediateNotWritable ∈ mayRaise i)
    (h : finish (write l v u) = .next t) : Ran i s t := by
  obtain ok | ⟨f, s', raised, rfl⟩ := finish_cases h
  · exact .stored moves dest ok
  · obtain ⟨_, rfl, e⟩ | ⟨_, rfl, e⟩ | ⟨_, rfl, e⟩ := write_cases l v u
    · simp [e] at raised
    · simp [e] at raised
    · obtain ⟨rfl, rfl⟩ : FaultKind.immediateNotWritable = f ∧ u = s' := by simpa [e] using raised
      exact .faulted moves listed

/-- A meaning that begins by resolving the fields of a two-field instruction. -/
theorem Ran.of_both_fields {k : Loc → Loc → State → Res Unit} (fields : i.usedFields = [f1, f2])
    (listed : .invalidAddress ∈ mayRaise i)
    (next : ∀ l1 s1 l2 s2, resolve f1 s = .ok l1 s1 → resolve f2 s1 = .ok l2 s2 → i.Moves s s2 →
      finish (k l1 l2 s2) = .next t → Ran i s t)
    (h : finish ((resolve f1 s).andThen fun l1 s => (resolve f2 s).andThen (k l1)) = .next t) : Ran i s t := by
  obtain ⟨-, rfl⟩ | ⟨l1, s1, resolves1, h⟩ := finish_resolve h
  · exact .faulted .rfl listed
  have moves1 : i.Moves s s1 := .resolve (by simp [fields]) resolves1
  obtain ⟨-, rfl⟩ | ⟨l2, s2, resolves2, h⟩ := finish_resolve h
  · exact .faulted moves1 listed
  have moves2 : i.Moves s1 s2 := .resolve (by simp [fields]) resolves2
  exact next l1 s1 l2 s2 resolves1 resolves2 (moves1.trans moves2) h

/-- A meaning that begins by resolving the field of a one-field instruction. -/
theorem Ran.of_field {k : Loc → State → Res Unit} (fields : i.usedFields = [f1]) (listed : .invalidAddress ∈ mayRaise i)
    (next : ∀ l1 s1, resolve f1 s = .ok l1 s1 → i.Moves s s1 → finish (k l1 s1) = .next t → Ran i s t)
    (h : finish ((resolve f1 s).andThen k) = .next t) : Ran i s t := by
  obtain ⟨-, rfl⟩ | ⟨l1, s1, resolves, h⟩ := finish_resolve h
  · exact .faulted .rfl listed
  · exact next l1 s1 resolves (.resolve (by simp [fields]) resolves) h

/-- The six conditional jumps (44_control_transfer.md R191). -/
theorem Ran.of_condJump {cond : Int → Bool} (fields : i.usedFields = [f1, f2]) (transfers : Reg.PC ∈ i.pointers)
    (listed : .invalidAddress ∈ mayRaise i) (h : condJump cond f1 f2 s = .next t) : Ran i s t := by
  refine .of_both_fields fields listed (fun l1 s1 l2 s2 _ _ moves h => ?_) h
  cases h
  split
  · exact .moved (moves.trans (.writePC _ transfers))
  · exact .moved moves

/-- The five arithmetic instructions (45_arithmetic.md R210). -/
theorem Ran.of_arith {op : ArithOp} (fields : i.usedFields = [f1, f2]) (listed : .invalidAddress ∈ mayRaise i)
    (dest : ∀ l s1, resolve f1 s = .ok l s1 → i.Destination s l) (destListed : .immediateNotWritable ∈ mayRaise i)
    (opListed : ∀ p q f, op p q = .error f → f ∈ mayRaise i) (h : arith op f1 f2 s = .next t) : Ran i s t := by
  refine .of_both_fields fields listed (fun l1 s1 l2 s2 resolves1 _ moves h => ?_) h
  obtain ⟨f, fails, rfl⟩ | ⟨r, -, h⟩ := finish_compute h
  · exact .faulted moves (opListed _ _ f fails)
  · exact .of_write moves (dest l1 s1 resolves1) destListed h

end

theorem opMod_error {p q : Int} {f : FaultKind} (h : opMod p q = .error f) : f = .divisionByZero := by
  unfold opMod at h
  split at h <;> simp_all

theorem opDiv_error {p q : Int} {f : FaultKind} (h : opDiv p q = .error f) : f = .divisionByZero := by
  unfold opDiv at h
  split at h <;> simp_all

/-- All that an instruction can do, whatever its operands. -/
theorem exec_ran {i : Instr} {s t : State} (h : exec i s = .next t) : Ran i s t := by
  cases i with
  | prnt f1 f2 =>
    refine .of_field (f1 := f1) rfl (by simp [mayRaise]) (fun l1 s1 _ moves h => ?_) h
    cases h
    exact .printed rfl moves
  | eop f1 f2 =>
    cases h
    exact .halted rfl
  | mov f1 f2 =>
    refine .of_both_fields rfl (by simp [mayRaise]) (fun l1 s1 l2 s2 resolves1 resolves2 moves h => ?_) h
    exact .of_write moves ⟨l1, s1, s2, resolves1, resolves2⟩ (by simp [mayRaise]) h
  | push f1 f2 =>
    refine .of_field (f1 := f1) rfl (by simp [mayRaise]) (fun l1 s1 resolves moves h => ?_) h
    obtain ⟨f, raised, rfl⟩ | ⟨-, cell, h⟩ := finish_stackPush h
    · exact .faulted moves (by simp [mayRaise] at raised ⊢; tauto)
    · have moves' := moves.trans (.writeTSP (wrap ((s1.readReg Reg.TSP).signed + 1)) (by simp [Instr.pointers]))
      cases h
      exact .stored moves' ⟨l1, s1, resolves, cell, rfl⟩ rfl
  | pop f1 f2 =>
    refine .of_field (f1 := f1) rfl (by simp [mayRaise]) (fun l1 s1 resolves moves h => ?_) h
    obtain ⟨f, raised, rfl⟩ | ⟨-, -, h⟩ := finish_stackPop h
    · exact .faulted moves (by simp [mayRaise] at raised ⊢; tauto)
    · have moves' := moves.trans (.writeTSP (wrap ((s1.readReg Reg.TSP).signed - 1)) (by simp [Instr.pointers]))
      exact .of_write moves' ⟨s1, resolves⟩ (by simp [mayRaise]) h
  | top f1 f2 =>
    refine .of_field (f1 := f1) rfl (by simp [mayRaise]) (fun l1 s1 resolves moves h => ?_) h
    obtain ⟨f, raised, rfl⟩ | ⟨-, -, h⟩ := finish_stackTop h
    · exact .faulted moves (by simp [mayRaise] at raised ⊢; tauto)
    · exact .of_write moves ⟨s1, resolves⟩ (by simp [mayRaise]) h
  | call f1 f2 =>
    refine .of_field (f1 := f1) rfl (by simp [mayRaise]) (fun l1 s1 resolves moves h => ?_) h
    obtain ⟨f, raised, rfl⟩ | ⟨-, cell, h⟩ := finish_stackPush h
    · exact .faulted moves (by simp [mayRaise] at raised ⊢; tauto)
    · have moves' := (moves.trans (.writeTSP (wrap ((s1.readReg Reg.TSP).signed + 1)) (by simp [Instr.pointers]))).trans
        (.writePC (target l1 s1) (by simp [Instr.pointers]))
      cases h
      exact .stored moves' ⟨l1, s1, resolves, cell, rfl⟩ rfl
  | ret f1 f2 =>
    obtain ⟨f, raised, rfl⟩ | ⟨-, -, h⟩ := finish_stackPop h
    · exact .faulted .rfl (by simp [mayRaise] at raised ⊢; tauto)
    · cases h
      exact .moved (.trans (.writeTSP _ (by simp [Instr.pointers])) (.writePC _ (by simp [Instr.pointers])))
  | scan f1 f2 =>
    refine .of_field (f1 := f1) rfl (by simp [mayRaise]) (fun l1 s1 resolves moves h => ?_) h
    obtain ⟨empty, rfl⟩ | ⟨v, rest, offered, h⟩ := finish_scanInto h
    · exact .waits rfl (moves.input ▸ empty) moves ⟨s1, resolves⟩
    · exact .took rfl (moves.input ▸ offered) moves ⟨s1, resolves⟩ h
  | jmp f1 f2 =>
    refine .of_field (f1 := f1) rfl (by simp [mayRaise]) (fun l1 s1 _ moves h => ?_) h
    cases h
    exact .moved (moves.trans (.writePC _ (by simp [Instr.pointers])))
  | jeq f1 f2 | jne f1 f2 | jlt f1 f2 | jle f1 f2 | jgt f1 f2 | jge f1 f2 =>
    exact .of_condJump rfl (by simp [Instr.pointers]) (by simp [mayRaise]) h
  | mod f1 f2 =>
    exact .of_arith rfl (by simp [mayRaise]) (fun _ s1 resolves => ⟨s1, resolves⟩) (by simp [mayRaise])
      (fun _ _ _ fails => by simp [mayRaise, opMod_error fails]) h
  | div f1 f2 =>
    exact .of_arith rfl (by simp [mayRaise]) (fun _ s1 resolves => ⟨s1, resolves⟩) (by simp [mayRaise])
      (fun _ _ _ fails => by simp [mayRaise, opDiv_error fails]) h
  | add f1 f2 | sub f1 f2 | mul f1 f2 =>
    exact .of_arith rfl (by simp [mayRaise]) (fun _ s1 resolves => ⟨s1, resolves⟩) (by simp [mayRaise])
      (fun _ _ _ fails => by cases fails) h

end Sys2Proof.Machine

end

section
/-! PROOFS. The machine's invariant: what it asks, the operations that keep it, and the statements that every step, every
action of the host and so every reachable state has it. -/

open Sys2Proof Sys2Proof.Machine Sys2Proof.Statements

namespace Sys2Proof.Machine

/-! ### What the invariant asks -/

theorem fltAgrees_iff (s : State) : s.fltAgrees = true ↔ (s.flt.isSome = true ↔ s.run = .faulted) := by
  rw [State.fltAgrees, beq_iff_eq, Bool.eq_iff_iff, decide_eq_true_iff]

theorem waitAgrees_iff (s : State) :
    s.waitAgrees = true ↔ ∀ l, s.scanWait = some l → s.run = .running ∧ l.inRange s.cfg = true := by
  unfold State.waitAgrees
  cases s.scanWait <;> simp

theorem inv_iff (s : State) :
    s.Inv ↔ s.cfg.wf = true ∧ Registers.wf s = true ∧ Memory.wf s = true ∧ (s.flt.isSome = true ↔ s.run = .faulted) ∧
      ∀ l, s.scanWait = some l → s.run = .running ∧ l.inRange s.cfg = true := by
  simp only [State.Inv, State.inv, Bool.and_eq_true, fltAgrees_iff, waitAgrees_iff, and_assoc]

section
variable {s t : State}

theorem State.Inv.admissible (h : s.Inv) : s.cfg.wf = true := by
  obtain ⟨hw, -⟩ := (inv_iff s).mp h
  exact hw

/-! ### The operations that keep it -/

/-- What the invariant asks of the two arrays and the configuration alone. -/
theorem State.Inv.of_sameButArrays (h : s.Inv) (others : SameButArrays s t) (regs : Registers.wf t = true)
    (mem : Memory.wf t = true) : t.Inv := by
  obtain ⟨hw, -, -, hf, hl⟩ := (inv_iff s).mp h
  obtain ⟨cfg, run, flt, -, -, -, wait⟩ := others
  refine (inv_iff t).mpr ⟨cfg ▸ hw, regs, mem, ?_, ?_⟩
  · rwa [flt, run]
  · rwa [wait, run, cfg]

theorem State.Inv.moves {rs : List Nat} {fs : List Operand} (h : s.Inv) (m : Moves rs fs s t) : t.Inv := by
  obtain ⟨hw, hr, hm, -⟩ := (inv_iff s).mp h
  refine h.of_sameButArrays m.others (m.canonical hw hr) ?_
  rwa [Memory.wf, m.mem, m.cfg]

theorem State.Inv.writeReg {a : Nat} (v : Word) (h : s.Inv) (inside : a < s.cfg.nreg) : (s.writeReg a v).Inv := by
  obtain ⟨-, hr, hm, -⟩ := (inv_iff s).mp h
  exact h.of_sameButArrays .rfl (writeReg_canonical v hr inside) hm

theorem State.Inv.writeMem {a : Nat} (v : Word) (h : s.Inv) (inside : a < s.cfg.memSize) : (s.writeMem a v).Inv := by
  obtain ⟨-, hr, hm, -⟩ := (inv_iff s).mp h
  exact h.of_sameButArrays .rfl hr (writeMem_canonical v hm inside)

theorem State.Inv.write {l : Loc} {v : Word} (h : s.Inv) (inside : l.inRange s.cfg = true)
    (writes : write l v s = .ok () t) : t.Inv := by
  cases l with
  | reg a => cases writes; exact h.writeReg v (of_decide_eq_true inside)
  | mem a => cases writes; exact h.writeMem v (of_decide_eq_true inside)
  | imm c => cases writes

/-- A fault may be taken where no SCAN waits. -/
theorem State.Inv.takeFault (f : FaultKind) (h : s.Inv) (noWait : s.scanWait = none) : (takeFault f s).Inv := by
  obtain ⟨hw, hr, hm, -, -⟩ := (inv_iff s).mp h
  exact (inv_iff _).mpr ⟨hw, hr, hm, by simp, by simp [noWait]⟩

theorem State.Inv.halt (h : s.Inv) (running : s.run = .running) (noWait : s.scanWait = none) : s.halt.Inv := by
  obtain ⟨hw, hr, hm, hf, -⟩ := (inv_iff s).mp h
  exact (inv_iff _).mpr ⟨hw, hr, hm, by simpa [running] using hf, by simp [noWait]⟩

theorem State.Inv.emit (v : Word) (h : s.Inv) : (s.emit v).Inv := by
  rw [inv_iff] at h ⊢
  exact h

theorem State.Inv.tookInput (rest : List Word) (h : s.Inv) : (s.tookInput rest).Inv := by
  obtain ⟨hw, hr, hm, hf, -⟩ := (inv_iff s).mp h
  exact (inv_iff _).mpr ⟨hw, hr, hm, hf, by simp⟩

theorem State.Inv.awaitInput {l : Loc} (h : s.Inv) (running : s.run = .running) (inside : l.inRange s.cfg = true) :
    (s.awaitInput l).Inv := by
  obtain ⟨hw, hr, hm, hf, -⟩ := (inv_iff s).mp h
  exact (inv_iff _).mpr ⟨hw, hr, hm, hf, by simp [running, inside]⟩

theorem State.Inv.fetched (h : s.Inv) (a : Nat) : (s.fetched a).Inv := by
  have latched : State.Inv { s with w := s.readMem a } := by
    rw [inv_iff] at h ⊢
    exact h
  have mapped {r : Nat} (h32 : r < 32) : r < s.cfg.nreg := lt_nreg_of_lt h.admissible h32
  exact (latched.writeReg _ (mapped (by decide))).writeReg _ (mapped (by decide))

/-! ### The steps -/

/-- SCAN's write of the value it took. -/
theorem State.Inv.finish_write_tookInput {l : Loc} {v : Word} {rest : List Word} (h : s.Inv)
    (inside : l.inRange s.cfg = true) (ends : finish (Machine.write l v (s.tookInput rest)) = .next t) : t.Inv := by
  obtain ok | ⟨f, u, raised, rfl⟩ := finish_cases ends
  · exact (h.tookInput rest).write inside ok
  · obtain ⟨a, rfl, e⟩ | ⟨a, rfl, e⟩ | ⟨c, rfl, e⟩ := write_cases l v (s.tookInput rest)
    all_goals cases raised
    exact (h.tookInput rest).takeFault _ rfl

theorem State.Inv.exec {i : Instr} (h : s.Inv) (running : s.run = .running) (noWait : s.scanWait = none)
    (runs : exec i s = .next t) : t.Inv := by
  cases exec_ran runs with
  | moved moves => exact h.moves moves
  | stored moves dest writes => exact (h.moves moves).write (moves.cfg ▸ inRange_of_destination dest) writes
  | faulted moves _ => exact (h.moves moves).takeFault _ (moves.scanWait.trans noWait)
  | printed _ moves => exact (h.moves moves).emit _
  | halted _ => exact h.halt running noWait
  | waits _ _ moves dest =>
    exact (h.moves moves).awaitInput (moves.run.trans running) (moves.cfg ▸ inRange_of_destination dest)
  | took _ _ moves dest ends =>
    exact (h.moves moves).finish_write_tookInput (moves.cfg ▸ inRange_of_destination dest) ends

theorem State.Inv.step (h : s.Inv) (steps : step s = .next t) : t.Inv := by
  obtain ⟨-, ⟨-, rfl⟩ | ⟨running, l, waits, ends⟩ | ⟨-, noWait, -, rfl⟩ | ⟨running, noWait, -, runs⟩⟩ := step_cases steps
  · exact h
  · obtain ⟨-, -, -, -, wait⟩ := (inv_iff s).mp h
    obtain ⟨-, inside⟩ := wait l waits
    obtain ⟨-, rfl⟩ | ⟨v, rest, -, ends⟩ := finish_scanInto ends
    · exact h.awaitInput running inside
    · exact h.finish_write_tookInput inside ends
  · exact h.takeFault _ noWait
  · obtain ⟨i, -, runs⟩ | ⟨_, -, rfl⟩ := decodeAndRun_cases runs
    · exact (h.fetched _).exec running noWait runs
    · exact (h.fetched _).takeFault _ noWait

end

theorem resetWith_inv {c : Config} (h : c.wf = true) : (State.resetWith c).Inv := by
  refine (inv_iff _).mpr ⟨h, ?_, by simp [Memory.wf, State.resetWith, Storage.canonical, Storage.rising],
    by simp [State.resetWith], by simp [State.resetWith]⟩
  have empty : Storage.canonical c.nreg [] = true := rfl
  exact Storage.canonical_store _ (Storage.canonical_store _ empty (lt_nreg_of_lt h (by decide)))
    (lt_nreg_of_lt h (by decide))

theorem State.Inv.hostAct {a : HostAction} {s t : State} (h : s.Inv) (acts : hostAct a s = some t) : t.Inv := by
  obtain ⟨supplied, -, rfl⟩ | ⟨sp, c, v, -, -, inside, rfl⟩ | ⟨-, idle, rfl⟩ | ⟨v, -, -, rfl⟩ := hostAct_cases acts
  · have reset := resetWith_inv h.admissible
    rw [inv_iff] at reset ⊢
    exact reset
  · cases sp
    · exact h.writeReg v inside
    · exact h.writeMem v inside
  · obtain ⟨hw, hr, hm, hf, -⟩ := (inv_iff s).mp h
    exact (inv_iff _).mpr ⟨hw, hr, hm, by simpa [idle] using hf, by simp⟩
  · rw [inv_iff] at h ⊢
    exact h

end Sys2Proof.Machine

/-- Settles O47: a step of a stopped core or a failing FETCH is no more than a fault taken; a waiting SCAN goes on with its
location in range; and every way an instruction can come out (`exec_ran`) keeps the invariant. -/
theorem everyStepKeepsTheInvariant : Obligations.EveryStepKeepsTheInvariant := fun _ _ inv steps => inv.step steps

/-- Settles O48: the two registers that reset writes lie inside every admissible array. -/
theorem resetHasTheInvariant : Obligations.ResetHasTheInvariant :=
  ⟨resetWith_inv (by decide), fun _ => resetWith_inv⟩

/-- Settles O49, along what a host action can do (`hostAct_cases`). -/
theorem everyHostActionKeepsTheInvariant : Obligations.EveryHostActionKeepsTheInvariant :=
  fun _ _ _ inv acts => inv.hostAct acts

/-- Settles O50, by induction on how the state was reached. -/
theorem everyReachableStateHasTheInvariant : Obligations.EveryReachableStateHasTheInvariant := by
  intro s reachable
  induction reachable with
  | reset c admissible => exact resetWith_inv admissible
  | step _ steps inv => exact inv.step steps
  | host _ a acts inv => exact inv.hostAct acts

end

section
/-! PROOFS. The statements of 40_addressing_resolver.md on the indexed, the auto and the stack mode (R116, R117, R119), on
what resolving any operand can do, and on reading a location back after a write (R120, R121). -/

open Sys2Proof Sys2Proof.Machine Sys2Proof.Statements

namespace Sys2Proof.Machine

/-! ### The modes as the checks they make -/

theorem resolve_idx (o : Nat) (s : State) :
    resolve (.idx o) s = (checkReg o s).andThen fun a s =>
      (checkMem ((s.readReg a).signed + s.cfg.disp) s).andThen fun ea s => .ok (.mem ea) s := rfl

theorem wrap_unsigned_succ (x : Word) : wrap ((x.unsigned : Int) + 1) = x + 1#32 := by
  rw [wrap_add, wrap_unsigned, wrap_one]

theorem wrap_unsigned_pred (x : Word) : wrap ((x.unsigned : Int) - 1) = x - 1#32 := by
  rw [wrap_sub, wrap_unsigned, wrap_one]

theorem resolve_increment (o : Nat) (s : State) :
    resolve (.auto .increment o) s =
      (checkReg o s).andThen fun a s => .ok (.imm (s.readReg a)) (s.writeReg a (s.readReg a + 1#32)) := by
  simp only [resolve, resolveAuto, wrap_unsigned_succ]

theorem resolve_decrement (o : Nat) (s : State) :
    resolve (.auto .decrement o) s =
      (checkReg o s).andThen fun a s => .ok (.imm (s.readReg a - 1#32)) (s.writeReg a (s.readReg a - 1#32)) := by
  simp only [resolve, resolveAuto, wrap_unsigned_pred]

/-! ### Writing a location -/

section
variable {l : Loc} {v : Word} {s t : State}

theorem sameButArrays_of_write (h : write l v s = .ok () t) : SameButArrays s t := by
  cases l with
  | reg a => cases h; exact .rfl
  | mem a => cases h; exact .rfl
  | imm c => cases h

theorem value_of_write_same (h : write l v s = .ok () t) : value l t = v := by
  cases l with
  | reg a => cases h; exact writeReg_readReg_same s a v
  | mem a => cases h; exact writeMem_readMem_same s a v
  | imm c => cases h

theorem value_of_write_ne {k : Loc} (h : write l v s = .ok () t) (ne : k ≠ l) : value k t = value k s := by
  cases l with
  | reg a =>
    cases h
    cases k with
    | reg b => exact writeReg_readReg_ne s v fun e => ne (congrArg Loc.reg e.symm)
    | mem b => rfl
    | imm c => rfl
  | mem a =>
    cases h
    cases k with
    | reg b => rfl
    | mem b => exact writeMem_readMem_ne s v fun e => ne (congrArg Loc.mem e.symm)
    | imm c => rfl
  | imm c => cases h

end

end Sys2Proof.Machine

/-- Settles O8: the indexed mode is the check of its field and then the check of the sum; a bad sum gives InvalidAddress
whichever of the two fails first. -/
theorem indexedModeAddsTheDisplacement : Obligations.IndexedModeAddsTheDisplacement := by
  refine fun o s => ⟨fun inside a cell sum => ?_, fun outside => ?_, fun badSum => ?_, fun noDisp => ?_⟩
  · rw [resolve_idx, checkReg_of_lt inside, Res.andThen_ok, sum, checkMem_of_lt cell, Res.andThen_ok]
  · rw [resolve_idx, checkReg_of_le outside, Res.andThen_raised]
  · rw [resolve_idx]
    exact checkReg_andThen_raised (by rw [checkMem_of_outside badSum, Res.andThen_raised])
  · rw [resolve_idx, resolve_regInd]
    obtain ⟨-, passes⟩ | ⟨-, fails⟩ := checkReg_cases o s
    · rw [passes, Res.andThen_ok, Res.andThen_ok, noDisp, Int.add_zero]
    · rw [fails, Res.andThen_raised, Res.andThen_raised]

/-- Settles O9: the one check of mode 101 passes or fails with nothing moved; adding 1 to the unsigned reading and wrapping
is adding 1 to the pattern. -/
theorem autoModeCapturesTheValueAndMovesTheRegister : Obligations.AutoModeCapturesTheValueAndMovesTheRegister := by
  refine fun a s => ⟨fun inside => ⟨?_, ?_⟩, fun outside d => ?_⟩
  · rw [resolve_increment, checkReg_of_lt inside, Res.andThen_ok]
  · rw [resolve_decrement, checkReg_of_lt inside, Res.andThen_ok]
  · cases d
    · rw [resolve_increment, checkReg_of_le outside, Res.andThen_raised]
    · rw [resolve_decrement, checkReg_of_le outside, Res.andThen_raised]

/-- Settles O10: mode 111 in a resolved field is the fault by definition. -/
theorem stackModeNamesNoLocation : Obligations.StackModeNamesNoLocation := fun _ _ => rfl

/-- Settles O11, from what `Moves` says of a resolved field and `eq_of_resolve_raised` of a failing one. -/
theorem resolvingIsCheckedAndChangesOnlyTheAutoRegister :
    Obligations.ResolvingIsCheckedAndChangesOnlyTheAutoRegister := by
  refine fun o s => ⟨fun l t resolves => ?_, fun f t => eq_of_resolve_raised⟩
  have moves : Moves [] [o] s t := .resolve (List.mem_singleton_self o) resolves
  exact ⟨inRange_of_resolve resolves, moves.others, moves.mem, moves.regs⟩

/-- Settles O12, by the kind of the location written. -/
theorem valueAfterWrite : Obligations.ValueAfterWrite := fun _ _ _ _ _ writes =>
  ⟨value_of_write_same writes, value_of_write_ne writes, sameButArrays_of_write writes⟩

end

section
/-! PROOFS. What each instruction leaves unchanged, and the faults each may raise (60_exceptions.md R231), from what an
instruction can do (`exec_ran`). -/

open Sys2Proof Sys2Proof.Machine Sys2Proof.Statements

namespace Sys2Proof.Statements

section
variable {s t u : State} {f : FaultKind}

theorem SameButArrays.sameStatus (h : SameButArrays s t) : SameStatus s t := by
  obtain ⟨cfg, run, flt, -, -, w, -⟩ := h
  exact ⟨cfg, w, .inl ⟨run, flt⟩⟩

theorem SameButArrays.takeFault_sameStatus (h : SameButArrays s t) : SameStatus s (takeFault f t) := by
  obtain ⟨cfg, -, -, -, -, w, -⟩ := h
  exact ⟨cfg, w, .inr ⟨by rfl, by rfl⟩⟩

theorem SameButArrays.sameChannels (h : SameButArrays s t) : SameChannels s t := by
  obtain ⟨-, -, -, out, input, -, wait⟩ := h
  exact ⟨out, input, wait⟩

theorem sameMem_of_mem (h : t.mem = s.mem) : SameMem s t := fun b => congrArg (Storage.load · b) h

end

end Sys2Proof.Statements

namespace Sys2Proof.Machine

/-! ### What a write that ends a meaning leaves -/

section
variable {l k : Loc} {v : Word} {s t u : State}

/-- A location reads the same in two states with the same arrays. -/
theorem value_congr (regs : t.regs = s.regs) (mem : t.mem = s.mem) : value k t = value k s := by
  cases k with
  | reg a => exact congrArg (Storage.load · a) regs
  | mem a => exact congrArg (Storage.load · a) mem
  | imm c => rfl

@[simp] theorem value_takeFault (f : FaultKind) : value k (takeFault f s) = value k s := value_congr rfl rfl

@[simp] theorem value_emit (v : Word) : value k (s.emit v) = value k s := value_congr rfl rfl

@[simp] theorem value_awaitInput (l : Loc) : value k (s.awaitInput l) = value k s := value_congr rfl rfl

@[simp] theorem value_tookInput (rest : List Word) : value k (s.tookInput rest) = value k s := value_congr rfl rfl

theorem finish_write_others (h : finish (write l v s) = .next t) :
    SameButArrays s t ∨ t = takeFault .immediateNotWritable s := by
  obtain ⟨_, rfl, rfl⟩ | ⟨_, rfl, rfl⟩ | ⟨_, rfl, rfl⟩ := finish_write h
  · exact .inl .rfl
  · exact .inl .rfl
  · exact .inr rfl

theorem finish_write_value (h : finish (write l v s) = .next t) (ne : k ≠ l) : value k t = value k s := by
  obtain writes | ⟨f, u, raised, rfl⟩ := finish_cases h
  · exact value_of_write_ne writes ne
  · cases l with
    | reg a => cases raised
    | mem a => cases raised
    | imm c => cases raised; exact value_takeFault _

/-- SCAN's write leaves what taking the input value left. -/
theorem finish_write_tookInput {rest : List Word} (h : finish (write l v (s.tookInput rest)) = .next t) :
    t.cfg = s.cfg ∧ t.w = s.w ∧ t.out = s.out ∧ t.input = rest ∧ t.scanWait = none ∧
    ((t.run = s.run ∧ t.flt = s.flt) ∨ t.run = .faulted ∧ t.flt = some .immediateNotWritable) := by
  obtain ⟨cfg, run, flt, out, input, w, wait⟩ | rfl := finish_write_others h
  · exact ⟨cfg, w, out, input, wait, .inl ⟨run, flt⟩⟩
  · exact ⟨rfl, rfl, rfl, rfl, rfl, .inr ⟨rfl, rfl⟩⟩

end

/-! ### What an instruction leaves -/

section
variable {i : Instr} {s t : State}

/-- A location that is not the destination and that no moved register stands behind. -/
theorem value_of_exec {k : Loc} (runs : exec i s = .next t) (notDest : ¬ i.Destination s k)
    (unmoved : ∀ u, i.Moves s u → value k u = value k s) : value k t = value k s := by
  have ne {l : Loc} (dest : i.Destination s l) : k ≠ l := fun e => notDest (e ▸ dest)
  cases exec_ran runs with
  | moved moves => exact unmoved t moves
  | stored moves dest writes => exact (value_of_write_ne writes (ne dest)).trans (unmoved _ moves)
  | faulted moves _ => rw [value_takeFault, unmoved _ moves]
  | printed _ moves => rw [value_emit, unmoved _ moves]
  | halted _ => exact value_congr rfl rfl
  | waits _ _ moves _ => rw [value_awaitInput, unmoved _ moves]
  | took _ _ moves dest ends =>
    rw [finish_write_value ends (ne dest), value_tookInput, unmoved _ moves]

theorem sameRegsBut_of_exec {rs : List Nat} {fs : List Operand} (runs : exec i s = .next t) (pointers : i.pointers ⊆ rs)
    (fields : i.usedFields ⊆ fs) (dest : ∀ r, i.Destination s (.reg r) → r ∈ rs) : SameRegsBut rs fs s t :=
  fun r outside unnamed => value_of_exec (k := .reg r) runs (fun isDest => outside (dest r isDest)) fun _ moves =>
    moves.regs r (fun h => outside (pointers h)) fun f h => unnamed f (fields h)

theorem sameMemBut_of_exec {a : Nat} (runs : exec i s = .next t) (dest : ∀ b, i.Destination s (.mem b) → b = a) :
    SameMemBut a s t :=
  fun b ne => value_of_exec (k := .mem b) runs (fun isDest => ne (dest b isDest)) fun _ moves => sameMem_of_mem moves.mem b

theorem sameMem_of_exec (runs : exec i s = .next t) (noCell : ∀ b, ¬ i.Destination s (.mem b)) : SameMem s t :=
  fun b => value_of_exec (k := .mem b) runs (noCell b) fun _ moves => sameMem_of_mem moves.mem b

theorem sameStatus_of_exec (runs : exec i s = .next t) (notEop : i.opcode ≠ .EOP) : SameStatus s t := by
  cases exec_ran runs with
  | moved moves => exact moves.others.sameStatus
  | stored moves _ writes => exact (moves.others.trans (sameButArrays_of_write writes)).sameStatus
  | faulted moves _ => exact moves.others.takeFault_sameStatus
  | printed _ moves => exact moves.others.sameStatus
  | halted isEop => subst isEop; exact absurd rfl notEop
  | waits _ _ moves _ => exact moves.others.sameStatus
  | took _ _ moves _ ends =>
    obtain ⟨cfg, w, -, -, -, ⟨run, flt⟩ | ⟨run, flt⟩⟩ := finish_write_tookInput ends
    · exact ⟨cfg.trans moves.cfg, w.trans moves.w, .inl ⟨run.trans moves.run, flt.trans moves.flt⟩⟩
    · exact ⟨cfg.trans moves.cfg, w.trans moves.w, .inr ⟨run, by simp [flt]⟩⟩

theorem out_of_exec (runs : exec i s = .next t) (notPrnt : i.opcode ≠ .PRNT) : t.out = s.out := by
  cases exec_ran runs with
  | moved moves => exact moves.out
  | stored moves _ writes =>
    obtain ⟨out, -⟩ := (moves.others.trans (sameButArrays_of_write writes)).sameChannels
    exact out
  | faulted moves _ => exact moves.out
  | printed isPrnt _ => subst isPrnt; exact absurd rfl notPrnt
  | halted _ => rfl
  | waits _ _ moves _ => exact moves.out
  | took _ _ moves _ ends =>
    obtain ⟨-, -, out, -⟩ := finish_write_tookInput ends
    exact out.trans moves.out

theorem input_of_exec (runs : exec i s = .next t) (notScan : i.opcode ≠ .SCAN) :
    t.input = s.input ∧ t.scanWait = s.scanWait := by
  cases exec_ran runs with
  | moved moves => exact ⟨moves.input, moves.scanWait⟩
  | stored moves _ writes =>
    obtain ⟨-, input⟩ := (moves.others.trans (sameButArrays_of_write writes)).sameChannels
    exact input
  | faulted moves _ => exact ⟨moves.input, moves.scanWait⟩
  | printed _ moves => exact ⟨moves.input, moves.scanWait⟩
  | halted _ => exact ⟨rfl, rfl⟩
  | waits isScan => subst isScan; exact absurd rfl notScan
  | took isScan => subst isScan; exact absurd rfl notScan

theorem sameChannels_of_exec (runs : exec i s = .next t) (notPrnt : i.opcode ≠ .PRNT) (notScan : i.opcode ≠ .SCAN) :
    SameChannels s t := ⟨out_of_exec runs notPrnt, input_of_exec runs notScan⟩

/-- RUN after an instruction: as before, FAULTED by a fault of its row, or HALTED by an EOP. -/
theorem run_of_exec (runs : exec i s = .next t) :
    t.run = s.run ∨ (t.run = .faulted ∧ ∃ f ∈ mayRaise i, t.flt = some f) ∨ (t.run = .halted ∧ i.opcode = .EOP) := by
  cases exec_ran runs with
  | moved moves => exact .inl moves.run
  | stored moves _ writes =>
    obtain ⟨-, run, -⟩ := moves.others.trans (sameButArrays_of_write writes)
    exact .inl run
  | faulted _ listed => exact .inr (.inl ⟨rfl, _, listed, rfl⟩)
  | printed _ moves => exact .inl moves.run
  | halted isEop => subst isEop; exact .inr (.inr ⟨rfl, rfl⟩)
  | waits _ _ moves _ => exact .inl moves.run
  | took isScan _ moves _ ends =>
    subst isScan
    obtain ⟨-, -, -, -, -, ⟨run, -⟩ | ⟨run, flt⟩⟩ := finish_write_tookInput ends
    · exact .inl (run.trans moves.run)
    · exact .inr (.inl ⟨run, _, by simp [mayRaise], flt⟩)

/-- A fault comes before the write. -/
theorem sameMem_of_exec_of_faulted (runs : exec i s = .next t) (faulted : t.run = .faulted) (notBefore : s.run ≠ .faulted) :
    SameMem s t := by
  cases exec_ran runs with
  | moved moves => exact sameMem_of_mem moves.mem
  | stored moves _ writes =>
    obtain ⟨-, run, -⟩ := moves.others.trans (sameButArrays_of_write writes)
    exact absurd (run.symm.trans faulted) notBefore
  | faulted moves _ => exact sameMem_of_mem moves.mem
  | printed _ moves => exact sameMem_of_mem moves.mem
  | halted _ => exact sameMem_of_mem rfl
  | waits _ _ moves _ => exact sameMem_of_mem moves.mem
  | took _ _ moves _ ends =>
    obtain ⟨-, run, -⟩ | rfl := finish_write_others ends
    · exact absurd ((run.trans moves.run).symm.trans faulted) notBefore
    · exact sameMem_of_mem moves.mem

end

/-! ### The destination field -/

theorem mem_destReg_of_resolve {o : Operand} {r : Nat} {s t : State} (h : resolve o s = .ok (.reg r) t) :
    r ∈ destReg o := by
  rw [eq_reg_of_resolve h]
  exact List.mem_singleton_self r

/-- The frame of an instruction with no destination. -/
theorem frame_of_no_destination {i : Instr} {s t : State} (runs : exec i s = .next t)
    (noDest : ∀ l, ¬ i.Destination s l) : SameMem s t ∧ SameRegsBut i.pointers i.usedFields s t :=
  ⟨sameMem_of_exec runs fun _ => noDest _,
    sameRegsBut_of_exec runs (List.Subset.refl _) (List.Subset.refl _) fun _ isDest => absurd isDest (noDest _)⟩

/-- The frame of an instruction whose destination is field 1. -/
theorem frame_of_destination_field1 {i : Instr} {f1 : Operand} {s t : State} (runs : exec i s = .next t)
    (dest : ∀ l, i.Destination s l → ∃ s1, resolve f1 s = .ok l s1) :
    SameRegsBut (destReg f1 ++ i.pointers) i.usedFields s t ∧
    (∀ a s1, resolve f1 s = .ok (.mem a) s1 → SameMemBut a s t) ∧
    ((∀ a s1, resolve f1 s ≠ .ok (.mem a) s1) → SameMem s t) := by
  refine ⟨sameRegsBut_of_exec runs (List.subset_append_right _ _) (List.Subset.refl _) fun r isDest => ?_,
    fun a s1 resolves => sameMemBut_of_exec runs fun b isDest => ?_,
    fun noCell => sameMem_of_exec runs fun b isDest => ?_⟩
  · obtain ⟨s1, resolves⟩ := dest _ isDest
    exact List.mem_append_left _ (mem_destReg_of_resolve resolves)
  · obtain ⟨s1', resolves'⟩ := dest _ isDest
    simp_all
  · obtain ⟨s1, resolves⟩ := dest _ isDest
    exact noCell b s1 resolves

/-! ### SCAN -/

theorem exec_scan (f1 f2 : Operand) (s : State) :
    exec (.scan f1 f2) s = finish ((resolve f1 s).andThen fun l s => scanInto l s) := rfl

theorem exec_scan_resolved {f1 f2 : Operand} {s s1 : State} {l : Loc} (resolves : resolve f1 s = .ok l s1) :
    exec (.scan f1 f2) s = finish (scanInto l s1) := by
  rw [exec_scan, resolves, Res.andThen_ok]

theorem scanInto_of_nil {l : Loc} {s : State} (empty : s.input = []) : scanInto l s = .ok () (s.awaitInput l) := by
  rw [scanInto, empty]

theorem scanInto_of_cons {l : Loc} {s : State} {v : Word} {rest : List Word} (offered : s.input = v :: rest) :
    scanInto l s = write l v (s.tookInput rest) := by
  rw [scanInto, offered]

/-- What SCAN does to IN and the wait, its field resolved or failing. -/
theorem scan_channels {f1 f2 : Operand} {s t : State} (runs : exec (.scan f1 f2) s = .next t) :
    (∀ l s1, resolve f1 s = .ok l s1 →
      (s.input = [] → t.input = [] ∧ t.scanWait = some l ∧ t.run = s.run ∧ SameMem s t ∧ SameRegsBut [] [f1] s t) ∧
      (∀ v rest, s.input = v :: rest → t.input = rest ∧ t.scanWait = none)) ∧
    ((∀ l s1, resolve f1 s ≠ .ok l s1) → t.input = s.input ∧ t.scanWait = s.scanWait) := by
  refine ⟨fun l s1 resolves => ?_, fun fails => ?_⟩
  · have moves : Moves [] [f1] s s1 := .resolve (List.mem_singleton_self f1) resolves
    rw [exec_scan_resolved resolves] at runs
    refine ⟨fun empty => ?_, fun v rest offered => ?_⟩
    · have empty1 := moves.input.trans empty
      rw [scanInto_of_nil empty1] at runs
      cases runs
      exact ⟨empty1, rfl, moves.run, sameMem_of_mem moves.mem, moves.regs⟩
    · rw [scanInto_of_cons (moves.input.trans offered)] at runs
      obtain ⟨-, -, -, input, wait, -⟩ := finish_write_tookInput runs
      exact ⟨input, wait⟩
  · obtain ⟨-, rfl⟩ | ⟨l, s1, resolves, -⟩ := finish_resolve runs
    · exact ⟨rfl, rfl⟩
    · exact absurd resolves (fails l s1)

end Sys2Proof.Machine

/-- Settles O33: none of them has a destination, so what they write is what they move and, in PRNT, OUT. -/
theorem frameOfPrntAndJumps : Obligations.FrameOfPrntAndJumps := by
  intro f1 f2 s t
  refine ⟨fun runs => ?_, fun runs => ?_, fun jcc mem runs => ?_⟩
  · obtain ⟨mem, regs⟩ := frame_of_no_destination runs fun _ => id
    exact ⟨mem, regs, sameStatus_of_exec runs nofun, input_of_exec runs nofun⟩
  · obtain ⟨mem, regs⟩ := frame_of_no_destination runs fun _ => id
    exact ⟨mem, regs, sameStatus_of_exec runs nofun, sameChannels_of_exec runs nofun nofun⟩
  · simp only [List.mem_cons, List.not_mem_nil, or_false] at mem
    obtain rfl | rfl | rfl | rfl | rfl | rfl := mem
    all_goals
      obtain ⟨mem, regs⟩ := frame_of_no_destination runs fun _ => id
      exact ⟨mem, regs, sameStatus_of_exec runs nofun, sameChannels_of_exec runs nofun nofun⟩

/-- Settles O34: the destination is the location that field 2 resolves to after field 1, of which there is at most one. -/
theorem frameOfMov : Obligations.FrameOfMov := by
  intro f1 f2 s t runs
  refine ⟨sameRegsBut_of_exec runs (List.nil_subset _) (List.Subset.refl _) fun r dest => ?_, sameStatus_of_exec runs nofun,
    sameChannels_of_exec runs nofun nofun, fun l1 s1 a s2 resolves1 resolves2 => sameMemBut_of_exec runs fun b dest => ?_,
    fun noCell => sameMem_of_exec runs fun b dest => ?_⟩
  · obtain ⟨l1, s1, s2, -, resolves2⟩ := dest
    exact mem_destReg_of_resolve resolves2
  · obtain ⟨l1', s1', s2', resolves1', resolves2'⟩ := dest
    simp_all
  · obtain ⟨l1, s1, s2, resolves1, resolves2⟩ := dest
    exact noCell l1 s1 b s2 resolves1 resolves2

/-- Settles O35: the five have field 1 as their destination and move no pointer. -/
theorem frameOfArithmetic : Obligations.FrameOfArithmetic := by
  intro mk mem f1 f2 s t runs
  simp only [List.mem_cons, List.not_mem_nil, or_false] at mem
  obtain rfl | rfl | rfl | rfl | rfl := mem
  all_goals
    obtain ⟨regs, cell, noCell⟩ := frame_of_destination_field1 (f1 := f1) runs fun _ => id
    rw [Instr.pointers, List.append_nil] at regs
    exact ⟨regs, sameStatus_of_exec runs nofun, sameChannels_of_exec runs nofun nofun, cell, noCell⟩

/-- Settles O36: the three have field 1 as their destination, and POP alone moves a pointer; SCAN's channel is
`scan_channels`. -/
theorem frameOfPopTopScan : Obligations.FrameOfPopTopScan := by
  intro mk mem f1 f2 s t runs
  simp only [List.mem_cons, List.not_mem_nil, or_false] at mem
  obtain rfl | rfl | rfl := mem
  all_goals
    obtain ⟨regs, cell, noCell⟩ := frame_of_destination_field1 (f1 := f1) runs fun _ => id
    refine ⟨by simpa [Instr.pointers, Instr.usedFields] using regs, sameStatus_of_exec runs nofun,
      out_of_exec runs nofun, ?_, ?_, cell, noCell⟩
  · exact fun _ => sameChannels_of_exec runs nofun nofun
  · exact nofun
  · exact fun _ => sameChannels_of_exec runs nofun nofun
  · exact nofun
  · exact fun notScan => absurd rfl notScan
  · exact fun _ => scan_channels runs

/-- Settles O37: the destination of both is the cell above the top as field 1 leaves it. -/
theorem frameOfPushAndCall : Obligations.FrameOfPushAndCall := by
  intro mk mem f1 f2 s t runs
  simp only [List.mem_cons, List.not_mem_nil, or_false] at mem
  obtain rfl | rfl := mem
  all_goals
    refine ⟨sameRegsBut_of_exec runs (by simp [Instr.pointers]) (List.Subset.refl _) fun r dest => ?_,
      sameStatus_of_exec runs nofun, sameChannels_of_exec runs nofun nofun,
      fun l1 s1 resolves => sameMemBut_of_exec runs fun b dest => ?_, fun fails => sameMem_of_exec runs fun b dest => ?_,
      sameMem_of_exec_of_faulted runs⟩
    all_goals obtain ⟨l1', s1', resolves', -, isTop⟩ := dest
    · cases isTop
    · simp_all
    · exact fails l1' s1' resolves'

/-- Settles O38: RET has no destination; EOP answers the state halted. -/
theorem frameOfRetAndEop : Obligations.FrameOfRetAndEop := by
  refine fun f1 f2 s t => ⟨fun runs => ?_, fun runs => ?_⟩
  · obtain ⟨mem, regs⟩ := frame_of_no_destination runs fun _ => id
    exact ⟨mem, regs, sameStatus_of_exec runs nofun, sameChannels_of_exec runs nofun nofun⟩
  · cases runs
    exact ⟨rfl, rfl, rfl, rfl, rfl, rfl, rfl, rfl⟩

/-- Settles O41: from a running state, FAULTED is neither RUN as before nor an EOP's HALTED. -/
theorem instructionsRaiseOnlyTheirFaults : Obligations.InstructionsRaiseOnlyTheirFaults := by
  intro i s t running runs faulted
  obtain same | ⟨-, raised⟩ | ⟨halted, -⟩ := run_of_exec runs
  · simp [faulted, running] at same
  · exact raised
  · simp [faulted] at halted

end

section
/-! PROOFS. The latch W is observed by nothing (10_state.md R32), so bits 2:0 of a word make no difference (30_encoding.md
R78); and the opcode bits and some words of 30_encoding.md section 3. -/

open Sys2Proof Sys2Proof.Machine Sys2Proof.Statements

namespace Sys2Proof.Machine

/-! ### Parts of a step that do not look at the latch -/

/-- What a part of a step answers, with the latch of its state replaced. -/
def Res.relatch {α : Type} (x : Word) : Res α → Res α
  | .ok a s => .ok a { s with w := x }
  | .raised f s => .raised f { s with w := x }

/-- A part of a step that does not look at the latch: with another word in it, everything else comes out the same. -/
def LatchBlind {α : Type} (p : State → Res α) : Prop := ∀ (s : State) (x : Word), p { s with w := x } = (p s).relatch x

theorem finish_relatch (x : Word) (r : Res Unit) : finish (r.relatch x) = relatch x (finish r) := by
  cases r <;> rfl

theorem relatch_relatch (x y : Word) (o : Host.Outcome State Fault Refusal) : relatch x (relatch y o) = relatch x o := by
  cases o <;> rfl

theorem LatchBlind.finish {p : State → Res Unit} (h : LatchBlind p) (s : State) (x : Word) :
    finish (p { s with w := x }) = relatch x (finish (p s)) := by
  rw [h s x, finish_relatch]

/-- First `p`, then `k`, which may use what was read from the state before `p`, but not from the latch. -/
theorem LatchBlind.andThen_reading {α β γ : Type} {p : State → Res α} {g : State → γ} {k : γ → α → State → Res β}
    (first : LatchBlind p) (blind : ∀ s x, g { s with w := x } = g s) (next : ∀ c a, LatchBlind (k c a)) :
    LatchBlind fun s => (p s).andThen (k (g s)) := fun s x => by
  change (p { s with w := x }).andThen (k (g { s with w := x })) = ((p s).andThen (k (g s))).relatch x
  rw [first s x, blind s x]
  cases p s with
  | ok a t => exact next (g s) a t x
  | raised f t => rfl

theorem LatchBlind.andThen {α β : Type} {p : State → Res α} {k : α → State → Res β} (first : LatchBlind p)
    (next : ∀ a, LatchBlind (k a)) : LatchBlind fun s => (p s).andThen k :=
  first.andThen_reading (g := fun _ => ()) (k := fun _ => k) (fun _ _ => rfl) fun _ => next

/-! ### The shared operations -/

theorem value_latch (l : Loc) (s : State) (x : Word) : value l { s with w := x } = value l s :=
  value_congr rfl rfl

theorem target_latch (l : Loc) (s : State) (x : Word) : target l { s with w := x } = target l s := by
  cases l <;> rfl

theorem checkReg_latchBlind (a : Nat) : LatchBlind (checkReg a) := fun s x => by
  obtain ⟨inside, ok⟩ | ⟨outside, fails⟩ := checkReg_cases a s
  · rw [ok, checkReg_of_lt (s := { s with w := x }) inside]
    rfl
  · rw [fails, checkReg_of_not_lt (s := { s with w := x }) outside]
    rfl

/-- The address checked may be read from the state, but not from the latch. -/
theorem checkMem_latchBlind {a : State → Int} (blind : ∀ s x, a { s with w := x } = a s) :
    LatchBlind fun s => checkMem (a s) s := fun s x => by
  change checkMem (a { s with w := x }) _ = (checkMem (a s) s).relatch x
  rw [blind]
  obtain ⟨cell, ok⟩ | ⟨noCell, fails⟩ := checkMem_cases (a s) s
  · rw [ok, checkMem_of_inMem (s := { s with w := x }) cell]
    rfl
  · rw [fails, checkMem_of_not_inMem (s := { s with w := x }) noCell]
    rfl

theorem resolve_latchBlind (o : Operand) : LatchBlind (resolve o) := by
  have cellOf {a : State → Int} (blind : ∀ s x, a { s with w := x } = a s) :
      LatchBlind fun s => (checkMem (a s) s).andThen fun ea s => .ok (Loc.mem ea) s :=
    (checkMem_latchBlind blind).andThen fun _ _ _ => rfl
  cases o with
  | reg a => exact (checkReg_latchBlind a).andThen fun _ _ _ => rfl
  | regInd a => exact (checkReg_latchBlind a).andThen fun _ => cellOf fun _ _ => rfl
  | imm v => exact fun _ _ => rfl
  | ind a => exact (checkMem_latchBlind fun _ _ => rfl).andThen fun _ => cellOf fun _ _ => rfl
  | idx a => exact (checkReg_latchBlind a).andThen fun _ => cellOf fun _ _ => rfl
  | auto d a => exact (checkReg_latchBlind a).andThen fun _ _ _ => by cases d <;> rfl
  | direct a => exact cellOf fun _ _ => rfl
  | stack a => exact fun _ _ => rfl

theorem write_latchBlind (l : Loc) {v : State → Word} (blind : ∀ s x, v { s with w := x } = v s) :
    LatchBlind fun s => write l (v s) s := fun s x => by
  change write l (v { s with w := x }) _ = (write l (v s) s).relatch x
  rw [blind]
  cases l <;> rfl

/-- A choice whose test does not look at the latch. -/
theorem LatchBlind.ite {α : Type} {c : State → Prop} [DecidablePred c] {p q : State → Res α}
    (blind : ∀ s x, c { s with w := x } = c s) (yes : LatchBlind p) (no : LatchBlind q) :
    LatchBlind fun s => if c s then p s else q s := fun s x => by
  change (if c { s with w := x } then _ else _) = Res.relatch x (if c s then _ else _)
  by_cases h : c s
  · rw [if_pos h, if_pos ((blind s x).symm ▸ h), yes s x]
  · rw [if_neg h, if_neg ((blind s x).symm ▸ h), no s x]

theorem stackPush_latchBlind : LatchBlind stackPush :=
  .ite (fun _ _ => rfl) (fun _ _ => rfl) <|
    (checkMem_latchBlind fun _ _ => rfl).andThen_reading (g := fun s => wrap ((s.readReg Reg.TSP).signed + 1))
      (k := fun v a s => .ok (Loc.mem a) (s.writeReg Reg.TSP v)) (fun _ _ => rfl) fun _ _ _ _ => rfl

theorem stackPop_latchBlind : LatchBlind stackPop :=
  .ite (fun _ _ => rfl) (fun _ _ => rfl) <|
    (checkMem_latchBlind fun _ _ => rfl).andThen_reading (g := fun s => wrap ((s.readReg Reg.TSP).signed - 1))
      (k := fun v a s => .ok (Loc.mem a) (s.writeReg Reg.TSP v)) (fun _ _ => rfl) fun _ _ _ _ => rfl

theorem stackTop_latchBlind : LatchBlind stackTop :=
  .ite (fun _ _ => rfl) (fun _ _ => rfl) ((checkMem_latchBlind fun _ _ => rfl).andThen fun _ _ _ => rfl)

theorem scanInto_latchBlind (l : Loc) : LatchBlind (scanInto l) := fun s x => by
  obtain ⟨empty, waits⟩ | ⟨v, rest, offered, takes⟩ := scanInto_cases l s
  · rw [waits, scanInto_of_nil (s := { s with w := x }) empty]
    rfl
  · rw [takes, scanInto_of_cons (s := { s with w := x }) offered]
    exact write_latchBlind l (v := fun _ => v) (fun _ _ => rfl) (s.tookInput rest) x

theorem compute_latchBlind {r : State → Except FaultKind Int} (blind : ∀ s x, r { s with w := x } = r s) :
    LatchBlind fun s => compute (r s) s := fun s x => by
  change compute (r { s with w := x }) _ = (compute (r s) s).relatch x
  rw [blind]
  cases r s <;> rfl

/-! ### The instructions -/

theorem condJump_latch (cond : Int → Bool) (f1 f2 : Operand) (s : State) (x : Word) :
    condJump cond f1 f2 { s with w := x } = relatch x (condJump cond f1 f2 s) :=
  ((resolve_latchBlind f1).andThen fun l1 => (resolve_latchBlind f2).andThen fun l2 s x => by
    rw [value_latch l1, target_latch l2]
    cases cond (value l1 s).signed <;> rfl).finish s x

theorem arith_latch (op : ArithOp) (f1 f2 : Operand) (s : State) (x : Word) :
    arith op f1 f2 { s with w := x } = relatch x (arith op f1 f2 s) :=
  ((resolve_latchBlind f1).andThen fun l1 => (resolve_latchBlind f2).andThen fun l2 =>
    (compute_latchBlind fun s x => by rw [value_latch l1, value_latch l2]).andThen fun _ =>
      write_latchBlind l1 fun _ _ => rfl).finish s x

theorem exec_latch (i : Instr) (s : State) (x : Word) : exec i { s with w := x } = relatch x (exec i s) := by
  cases i with
  | prnt f1 f2 =>
    exact ((resolve_latchBlind f1).andThen fun l s x => by rw [value_latch l]; rfl).finish s x
  | eop f1 f2 => rfl
  | mov f1 f2 =>
    exact ((resolve_latchBlind f1).andThen fun l1 => (resolve_latchBlind f2).andThen fun l2 =>
      write_latchBlind l2 (value_latch l1)).finish s x
  | push f1 f2 =>
    exact ((resolve_latchBlind f1).andThen fun l => stackPush_latchBlind.andThen fun ls =>
      write_latchBlind ls (value_latch l)).finish s x
  | pop f1 f2 =>
    exact ((resolve_latchBlind f1).andThen fun l => stackPop_latchBlind.andThen fun ls =>
      write_latchBlind l (value_latch ls)).finish s x
  | top f1 f2 =>
    exact ((resolve_latchBlind f1).andThen fun l => stackTop_latchBlind.andThen fun ls =>
      write_latchBlind l (value_latch ls)).finish s x
  | call f1 f2 =>
    exact ((resolve_latchBlind f1).andThen fun l => stackPush_latchBlind.andThen_reading
      (k := fun t ls s => (write ls (s.readReg Reg.PC) s).andThen fun _ s => .ok () (s.writeReg Reg.PC t))
      (target_latch l) fun _ ls => (write_latchBlind ls fun _ _ => rfl).andThen fun _ _ _ => rfl).finish s x
  | ret f1 f2 =>
    exact (stackPop_latchBlind.andThen fun ls s x => by rw [value_latch ls]; rfl).finish s x
  | scan f1 f2 => exact ((resolve_latchBlind f1).andThen scanInto_latchBlind).finish s x
  | jmp f1 f2 =>
    exact ((resolve_latchBlind f1).andThen fun l s x => by rw [target_latch l]; rfl).finish s x
  | jeq f1 f2 | jne f1 f2 | jlt f1 f2 | jle f1 f2 | jgt f1 f2 | jge f1 f2 => exact condJump_latch _ f1 f2 s x
  | mod f1 f2 | add f1 f2 | sub f1 f2 | mul f1 f2 | div f1 f2 => exact arith_latch _ f1 f2 s x

end Sys2Proof.Machine

namespace Sys2Proof

/-- The fields lie in bits 31:3, so words that agree there decode alike. -/
theorem decode_congr {w w' : Word} (h : w.extractLsb' 3 29 = w'.extractLsb' 3 29) : decode w = decode w' := by
  have bit {n : Nat} (inside : n < 29) : w.getLsbD (3 + n) = w'.getLsbD (3 + n) := by
    simpa [BitVec.getLsbD_extractLsb', inside] using congrArg (BitVec.getLsbD · n) h
  have field (start len : Nat) (inside : start + len ≤ 29) :
      w.extractLsb' (3 + start) len = w'.extractLsb' (3 + start) len := by
    apply BitVec.eq_of_getLsbD_eq
    intro n hn
    rw [BitVec.getLsbD_extractLsb', BitVec.getLsbD_extractLsb', Nat.add_assoc, bit (by omega)]
  simp only [decode, classBits, categoryBits, mode1Bits, operand1Bits, mode2Bits, operand2Bits, field 27 2 (by decide),
    field 22 5 (by decide), field 19 3 (by decide), field 11 8 (by decide), field 8 3 (by decide), field 0 8 (by decide)]

end Sys2Proof

/-- Settles O42: every meaning is a sequence of operations that do not look at the latch. -/
theorem noInstructionObservesTheLatch : Obligations.NoInstructionObservesTheLatch := exec_latch

/-- Settles O2: the two words decode alike (`decode_congr`), and what runs does not see which of them is latched
(`exec_latch`). -/
theorem reservedBitsMakeNoDifference : Obligations.ReservedBitsMakeNoDifference := by
  refine ⟨fun i => ?_, fun w w' agree => ⟨fun i => by rw [decode_congr agree], fun s x => ?_⟩⟩
  · obtain ⟨-, -, -, -, -, -, reserved⟩ := fields_of_parts i.opcode.cls.code i.opcode.category i.f1.modeBits i.f1.fieldBits
      i.f2.modeBits i.f2.fieldBits
    exact reserved
  · unfold decodeAndRun
    rw [show decode ({ s with w := w } : State).w = decode w' from decode_congr agree]
    cases decode w' with
    | ok i =>
      calc relatch x (exec i { s with w := w })
        _ = relatch x (exec i s) := by rw [exec_latch i s w, relatch_relatch]
        _ = relatch x (exec i { s with w := w' }) := by rw [exec_latch i s w', relatch_relatch]
    | error e => rfl

/-- Settles O4: a mnemonic's match value is its class and category, whatever the operands. -/
theorem opcodeBitsOfEveryInstruction : Obligations.OpcodeBitsOfEveryInstruction := by
  have row (o : Opcode) : HasMatch o.instr o.matchWord := hasMatch_of_opcode o.opcode_instr
  exact ⟨row .PRNT, row .EOP, row .MOV, row .PUSH, row .POP, row .TOP, row .CALL, row .RET, row .SCAN, row .JEQ, row .JNE,
    row .JLT, row .JLE, row .JGT, row .JGE, row .JMP, row .MOD, row .ADD, row .SUB, row .MUL, row .DIV⟩

/-- Settles O5: each of the words is the one its instruction encodes to. -/
theorem sampleWordsDecode : Obligations.SampleWordsDecode :=
  ⟨decode_encode (.mov (.imm 10) (.reg 17)) rfl, decode_encode (.sub (.direct 200) (.auto .decrement 19)) rfl,
    decode_encode (.add (.idx 18) (.auto .increment 19)) rfl, decode_encode (.mov (.regInd 17) (.ind 41)) rfl,
    decode_encode (.push (.reg 17) (.stack 0)) rfl, decode_encode (.jeq (.reg 17) (.direct 6)) rfl,
    decode_encode (.eop (.reg 0) (.reg 0)) rfl⟩

end

section
/-! PROOFS. The stack: TOP (43_write_only.md R174), CALL and RET (44_control_transfer.md R199, R200), the stack's invariant
(10_state.md R29) and its law of last in, first out. -/

open Sys2Proof Sys2Proof.Machine Sys2Proof.Statements

namespace Sys2Proof.Machine

/-! ### The three instructions -/

theorem exec_top (f1 f2 : Operand) (s : State) :
    exec (.top f1 f2) s = finish ((resolve f1 s).andThen fun l1 s =>
      (stackTop s).andThen fun ls s => write l1 (value ls s) s) := rfl

theorem exec_call (f1 f2 : Operand) (s : State) :
    exec (.call f1 f2) s = finish ((resolve f1 s).andThen fun l1 s => (stackPush s).andThen fun ls s' =>
      (write ls (s'.readReg Reg.PC) s').andThen fun _ s' => .ok () (s'.writeReg Reg.PC (target l1 s))) := rfl

theorem exec_ret (f1 f2 : Operand) (s : State) :
    exec (.ret f1 f2) s = finish ((stackPop s).andThen fun ls s => .ok () (s.writeReg Reg.PC (value ls s))) := rfl

section
variable {f1 f2 : Operand} {s s1 : State} {l1 : Loc}

theorem stackTop_of_lt (empty : (s.readReg Reg.TSP).signed < (s.readReg Reg.SPR).signed) :
    stackTop s = .raised .stackUnderflow s := if_pos empty

theorem stackTop_of_not_inMem (nonempty : (s.readReg Reg.SPR).signed ≤ (s.readReg Reg.TSP).signed)
    (noCell : ¬ InMem s.cfg (s.readReg Reg.TSP).signed) : stackTop s = .raised .invalidAddress s := by
  rw [stackTop, if_neg (Int.not_lt.mpr nonempty), checkMem_of_not_inMem noCell, Res.andThen_raised]

theorem stackTop_of_inMem (nonempty : (s.readReg Reg.SPR).signed ≤ (s.readReg Reg.TSP).signed)
    (cell : InMem s.cfg (s.readReg Reg.TSP).signed) :
    stackTop s = .ok (.mem (s.readReg Reg.TSP).signed.toNat) s := by
  rw [stackTop, if_neg (Int.not_lt.mpr nonempty), checkMem_of_inMem cell, Res.andThen_ok]

/-- A CALL whose push succeeds. -/
theorem exec_call_of_inMem (resolves : resolve f1 s = .ok l1 s1)
    (room : (s1.readReg Reg.TSP).signed + 1 ≤ s1.cfg.stackLimit) (cell : InMem s1.cfg ((s1.readReg Reg.TSP).signed + 1)) :
    exec (.call f1 f2) s =
      .next (((s1.writeReg Reg.TSP (s1.readReg Reg.TSP + 1#32)).writeMem ((s1.readReg Reg.TSP).signed + 1).toNat
        (s1.readReg Reg.PC)).writeReg Reg.PC (target l1 s1)) := by
  rw [exec_call, resolves, Res.andThen_ok, stackPush_of_inMem room cell, Res.andThen_ok,
    writeReg_readReg_ne _ _ (by decide), write_mem, Res.andThen_ok, finish_ok]

/-- A RET whose pop succeeds. -/
theorem exec_ret_of_inMem (nonempty : (s.readReg Reg.SPR).signed ≤ (s.readReg Reg.TSP).signed)
    (cell : InMem s.cfg (s.readReg Reg.TSP).signed) :
    exec (.ret f1 f2) s =
      .next ((s.writeReg Reg.TSP (s.readReg Reg.TSP - 1#32)).writeReg Reg.PC
        (s.readMem (s.readReg Reg.TSP).signed.toNat)) := by
  rw [exec_ret, stackPop_of_inMem nonempty cell, Res.andThen_ok, value_mem, writeReg_readMem, finish_ok]

end

/-! ### Moving TSP without wrapping -/

section
variable {c : Config} {x : Word}

/-- A cell index is below 2^31, so a push to a cell wraps nothing (00_scope.md R6). -/
theorem signed_succ_of_inMem (admissible : c.wf = true) (cell : InMem c (x.signed + 1)) :
    (x + 1#32).signed = x.signed + 1 := by
  obtain ⟨-, -, -, memSize, -⟩ := config_bounds admissible
  obtain ⟨nonneg, lt⟩ := cell
  rw [← wrap_signed_succ, signed_wrap (by omega) (by omega)]

theorem signed_pred_of_inMem (cell : InMem c x.signed) : (x - 1#32).signed = x.signed - 1 := by
  obtain ⟨nonneg, -⟩ := cell
  have bounds := signed_bounds x
  rw [← wrap_signed_pred, signed_wrap (by omega) (by omega)]

end

/-! ### The stack's invariant -/

section
variable {s t : State}

theorem State.StackOk.of_regs (h : s.StackOk) (spr : t.readReg Reg.SPR = s.readReg Reg.SPR)
    (tsp : t.readReg Reg.TSP = s.readReg Reg.TSP) : t.StackOk := by
  rwa [State.StackOk, spr, tsp]

/-- TSP after the push of a value. -/
theorem State.StackOk.pushTSP (h : s.StackOk) (admissible : s.cfg.wf = true)
    (cell : InMem s.cfg ((s.readReg Reg.TSP).signed + 1)) :
    (s.writeReg Reg.TSP (wrap ((s.readReg Reg.TSP).signed + 1))).StackOk := by
  rw [State.StackOk] at h ⊢
  rw [writeReg_readReg_same, writeReg_readReg_ne _ _ (by decide), wrap_signed_succ, signed_succ_of_inMem admissible cell]
  omega

/-- TSP after the pop of a value. -/
theorem stackOk_popTSP (nonempty : (s.readReg Reg.SPR).signed ≤ (s.readReg Reg.TSP).signed)
    (cell : InMem s.cfg (s.readReg Reg.TSP).signed) :
    (s.writeReg Reg.TSP (wrap ((s.readReg Reg.TSP).signed - 1))).StackOk := by
  rw [State.StackOk, writeReg_readReg_same, writeReg_readReg_ne _ _ (by decide), wrap_signed_pred,
    signed_pred_of_inMem cell]
  omega

theorem State.StackOk.moves {rs : List Nat} {fs : List Operand} (h : s.StackOk) (moves : Moves rs fs s t)
    (noPointer : ∀ r ∈ [Reg.SPR, Reg.TSP], r ∉ rs ∧ ∀ f ∈ fs, autoReg f ≠ some r) : t.StackOk := by
  obtain ⟨spr, sprAuto⟩ := noPointer Reg.SPR (by decide)
  obtain ⟨tsp, tspAuto⟩ := noPointer Reg.TSP (by decide)
  exact h.of_regs (moves.regs _ spr sprAuto) (moves.regs _ tsp tspAuto)

theorem State.StackOk.finish_write {l : Loc} {v : Word} (h : s.StackOk)
    (noPointer : ∀ r ∈ [Reg.SPR, Reg.TSP], Loc.reg r ≠ l) (ends : finish (write l v s) = .next t) : t.StackOk :=
  h.of_regs (finish_write_value (k := .reg Reg.SPR) ends (noPointer _ (by decide)))
    (finish_write_value (k := .reg Reg.TSP) ends (noPointer _ (by decide)))

end

/-! ### Last in, first out -/

/-- The state after a push of `v` to a cell. -/
def State.pushed (s : State) (v : Word) : State :=
  (s.writeReg Reg.TSP (s.readReg Reg.TSP + 1#32)).writeMem ((s.readReg Reg.TSP).signed + 1).toNat v

/-- `u` is `s` but for the cells above the top of the stack. -/
structure SameToTop (s u : State) : Prop where
  cfg : u.cfg = s.cfg
  regs : ∀ r, u.readReg r = s.readReg r
  mem : ∀ b : Nat, (b : Int) ≤ (s.readReg Reg.TSP).signed → u.readMem b = s.readMem b

section
variable {s t : State} {v : Word} {vs : List Word}

@[simp] theorem pushed_cfg (s : State) (v : Word) : (s.pushed v).cfg = s.cfg := rfl

@[simp] theorem pushed_readReg_TSP (s : State) (v : Word) : (s.pushed v).readReg Reg.TSP = s.readReg Reg.TSP + 1#32 := by
  rw [State.pushed, writeMem_readReg, writeReg_readReg_same]

theorem pushed_readReg_ne (s : State) (v : Word) {r : Nat} (h : Reg.TSP ≠ r) : (s.pushed v).readReg r = s.readReg r := by
  rw [State.pushed, writeMem_readReg, writeReg_readReg_ne _ _ h]

theorem State.StackOk.pushed (h : s.StackOk) (admissible : s.cfg.wf = true)
    (cell : InMem s.cfg ((s.readReg Reg.TSP).signed + 1)) : (s.pushed v).StackOk := by
  have tsp := h.pushTSP admissible cell
  rw [wrap_signed_succ] at tsp
  exact tsp.of_regs rfl rfl

theorem pushed_readMem (s : State) (v : Word) (b : Nat) :
    (s.pushed v).readMem b = if ((s.readReg Reg.TSP).signed + 1).toNat = b then v else s.readMem b := by
  rw [State.pushed, writeMem_readMem, writeReg_readMem]

theorem pushAll_cons_of_inMem (room : (s.readReg Reg.TSP).signed + 1 ≤ s.cfg.stackLimit)
    (cell : InMem s.cfg ((s.readReg Reg.TSP).signed + 1)) : pushAll (v :: vs) s = pushAll vs (s.pushed v) := by
  rw [pushAll, stackPush_of_inMem room cell, Res.andThen_ok, write_mem, Res.andThen_ok, State.pushed]

/-- Values that fit below STACK_LIMIT can be pushed, and TSP moves by as many. -/
theorem pushAll_of_room (admissible : s.cfg.wf = true) (bottom : -1 ≤ (s.readReg Reg.TSP).signed)
    (room : (s.readReg Reg.TSP).signed + vs.length ≤ s.cfg.stackLimit) :
    ∃ t, pushAll vs s = .ok () t ∧ t.cfg = s.cfg ∧ (t.readReg Reg.TSP).signed = (s.readReg Reg.TSP).signed + vs.length := by
  induction vs generalizing s with
  | nil => exact ⟨s, rfl, rfl, by simp⟩
  | cons v vs ih =>
    rw [List.length_cons, Nat.cast_succ] at room
    have room1 : (s.readReg Reg.TSP).signed + 1 ≤ s.cfg.stackLimit := by omega
    have cell := inMem_of_le_stackLimit admissible (by omega) room1
    have tsp : ((s.pushed v).readReg Reg.TSP).signed = (s.readReg Reg.TSP).signed + 1 := by
      rw [pushed_readReg_TSP, signed_succ_of_inMem admissible cell]
    obtain ⟨t, pushes, cfg, top⟩ := ih (s := s.pushed v) admissible (by omega) (by rw [pushed_cfg]; omega)
    refine ⟨t, (pushAll_cons_of_inMem room1 cell).trans pushes, cfg, ?_⟩
    rw [top, tsp, List.length_cons, Nat.cast_succ]
    omega

/-- Popping `m + n` values is popping `m` and then `n`. -/
theorem popAll_add (m n : Nat) (s : State) :
    popAll (m + n) s = (popAll m s).andThen fun vs t => (popAll n t).andThen fun ws u => .ok (vs ++ ws) u := by
  induction m generalizing s with
  | zero =>
    rw [Nat.zero_add, popAll, Res.andThen_ok]
    cases popAll n s <;> rfl
  | succ m ih =>
    rw [Nat.succ_add, popAll, popAll]
    cases stackPop s with
    | raised f t => rfl
    | ok l t =>
      simp only [Res.andThen_ok, ih]
      cases popAll m t with
      | raised f u => rfl
      | ok vs u =>
        simp only [Res.andThen_ok]
        cases popAll n u <;> rfl

/-- A state whose TSP is one above that of `s`, at a cell, pops that cell and has the TSP of `s` again. -/
theorem stackPop_above {u : State} (admissible : s.cfg.wf = true) (stackOk : s.StackOk)
    (cell : InMem s.cfg ((s.readReg Reg.TSP).signed + 1)) (cfg : u.cfg = s.cfg)
    (spr : u.readReg Reg.SPR = s.readReg Reg.SPR) (tsp : u.readReg Reg.TSP = s.readReg Reg.TSP + 1#32) :
    stackPop u = .ok (.mem ((s.readReg Reg.TSP).signed + 1).toNat) (u.writeReg Reg.TSP (s.readReg Reg.TSP)) := by
  have tspSigned : (u.readReg Reg.TSP).signed = (s.readReg Reg.TSP).signed + 1 := by
    rw [tsp, signed_succ_of_inMem admissible cell]
  rw [State.StackOk] at stackOk
  rw [stackPop_of_inMem (by rw [spr, tspSigned]; omega) (by rwa [tspSigned, cfg]), tspSigned, tsp, BitVec.add_sub_cancel]

theorem exec_ret_above {u : State} (g1 g2 : Operand) (admissible : s.cfg.wf = true) (stackOk : s.StackOk)
    (cell : InMem s.cfg ((s.readReg Reg.TSP).signed + 1)) (cfg : u.cfg = s.cfg)
    (spr : u.readReg Reg.SPR = s.readReg Reg.SPR) (tsp : u.readReg Reg.TSP = s.readReg Reg.TSP + 1#32)
    (top : u.readMem ((s.readReg Reg.TSP).signed + 1).toNat = v) :
    exec (.ret g1 g2) u = .next ((u.writeReg Reg.TSP (s.readReg Reg.TSP)).writeReg Reg.PC v) := by
  rw [exec_ret, stackPop_above admissible stackOk cell cfg spr tsp, Res.andThen_ok, value_mem, writeReg_readMem, top,
    finish_ok]

/-- A state that is as `s` was after a push of `v`, up to the new top, gives `v` back and is then as `s`. -/
theorem popAll_one_of_pushed {u : State} (admissible : s.cfg.wf = true) (stackOk : s.StackOk)
    (cell : InMem s.cfg ((s.readReg Reg.TSP).signed + 1)) (same : SameToTop (s.pushed v) u) :
    ∃ u', popAll 1 u = .ok [v] u' ∧ SameToTop s u' := by
  have top : ((s.pushed v).readReg Reg.TSP).signed = (s.readReg Reg.TSP).signed + 1 := by
    rw [pushed_readReg_TSP, signed_succ_of_inMem admissible cell]
  have spr : u.readReg Reg.SPR = s.readReg Reg.SPR := by rw [same.regs, pushed_readReg_ne _ _ (by decide)]
  have tsp : u.readReg Reg.TSP = s.readReg Reg.TSP + 1#32 := by rw [same.regs, pushed_readReg_TSP]
  have read : u.readMem ((s.readReg Reg.TSP).signed + 1).toNat = v := by
    obtain ⟨nonneg, -⟩ := cell
    rw [same.mem _ (by omega), pushed_readMem, if_pos rfl]
  refine ⟨u.writeReg Reg.TSP (s.readReg Reg.TSP), ?_, same.cfg, fun r => ?_, fun b le => ?_⟩
  · rw [popAll, stackPop_above admissible stackOk cell same.cfg spr tsp, Res.andThen_ok, popAll, Res.andThen_ok, value_mem,
      writeReg_readMem, read]
  · by_cases isTSP : Reg.TSP = r
    · rw [← isTSP, writeReg_readReg_same]
    · rw [writeReg_readReg_ne _ _ isTSP, same.regs, pushed_readReg_ne _ _ isTSP]
  · rw [writeReg_readMem, same.mem b (by omega), pushed_readMem, if_neg (by omega)]

/-- What was pushed comes back in reverse order, and the stack is as before. -/
theorem popAll_of_pushAll (admissible : s.cfg.wf = true) (stackOk : s.StackOk) (pushes : pushAll vs s = .ok () t) :
    ∃ u, popAll vs.length t = .ok vs.reverse u ∧ SameToTop s u := by
  induction vs generalizing s with
  | nil => cases pushes; exact ⟨_, rfl, rfl, fun _ => rfl, fun _ _ => rfl⟩
  | cons v vs ih =>
    obtain ⟨l, s1, push, -⟩ := Res.andThen_eq_ok pushes
    obtain ⟨-, fails⟩ | ⟨-, -, fails⟩ | ⟨room, cell, -⟩ := stackPush_cases s
    · simp [push] at fails
    · simp [push] at fails
    rw [pushAll_cons_of_inMem room cell] at pushes
    obtain ⟨u, pops, same⟩ := ih (s := s.pushed v) admissible (stackOk.pushed admissible cell) pushes
    obtain ⟨u', popsOne, same'⟩ := popAll_one_of_pushed admissible stackOk cell same
    refine ⟨u', ?_, same'⟩
    rw [List.length_cons, popAll_add, pops, Res.andThen_ok, popsOne, Res.andThen_ok, List.reverse_cons]

end

end Sys2Proof.Machine

/-- Settles O20: after field 1 TOP is the stack sub-operation, whose three outcomes are the three clauses. -/
theorem topCopiesTheTopElement : Obligations.TopCopiesTheTopElement := by
  refine fun f1 f2 s => ⟨fun fails => ?_, fun l1 s1 resolves =>
    ⟨fun empty => ?_, fun nonempty noCell => ?_, fun nonempty cell => writesResult_of_exec ?_⟩⟩
  · rw [exec_top, fails, Res.andThen_raised, finish_raised]
  · rw [exec_top, resolves, Res.andThen_ok, stackTop_of_lt empty, Res.andThen_raised, finish_raised]
  · rw [exec_top, resolves, Res.andThen_ok, stackTop_of_not_inMem nonempty noCell, Res.andThen_raised, finish_raised]
  · rw [exec_top, resolves, Res.andThen_ok, stackTop_of_inMem nonempty cell, Res.andThen_ok, value_mem]

/-- Settles O25: after field 1 CALL is the push, whose three outcomes are the three clauses; moving TSP does not touch the PC
that is pushed. -/
theorem callPushesThePcAndJumps : Obligations.CallPushesThePcAndJumps := by
  refine fun f1 f2 s => ⟨fun fails => ?_, fun l1 s1 resolves =>
    ⟨fun full => ?_, fun room neg => ?_, fun admissible room nonneg => ?_⟩⟩
  · rw [exec_call, fails, Res.andThen_raised, finish_raised]
  · rw [exec_call, resolves, Res.andThen_ok, stackPush_of_gt full, Res.andThen_raised, finish_raised]
  · rw [exec_call, resolves, Res.andThen_ok, stackPush_of_neg room neg, Res.andThen_raised, finish_raised]
  · exact exec_call_of_inMem resolves room (inMem_of_le_stackLimit admissible nonneg room)

/-- Settles O26: RET is the pop, whose three outcomes are the three clauses. -/
theorem retPopsThePc : Obligations.RetPopsThePc := by
  refine fun f1 f2 s => ⟨fun empty => ?_, fun nonempty noCell => ?_, exec_ret_of_inMem⟩
  · rw [exec_ret, stackPop_of_lt empty, Res.andThen_raised, finish_raised]
  · rw [exec_ret, stackPop_of_not_inMem nonempty noCell, Res.andThen_raised, finish_raised]

/-- Settles O27: a CALL that leaves the core running has pushed the PC to a cell, and there RET finds it, with TSP one above
where it was. -/
theorem retReturnsAfterTheCall : Obligations.RetReturnsAfterTheCall := by
  intro f1 f2 g1 g2 s s1 t l1 p q admissible running resolves stackOk calls stillRunning
  have moves : Moves [] [f1] s s1 := .resolve (List.mem_singleton_self f1) resolves
  have admissible1 : s1.cfg.wf = true := moves.cfg ▸ admissible
  have calls' := calls
  rw [exec_call, resolves, Res.andThen_ok] at calls'
  obtain ⟨f, -, rfl⟩ | ⟨room, cell, -⟩ := finish_stackPush calls'
  · cases stillRunning
  rw [exec_call_of_inMem resolves room cell] at calls
  cases calls
  refine ⟨_, exec_ret_above (s := s1) (v := s1.readReg Reg.PC) g1 g2 admissible1 stackOk cell rfl ?_ ?_ ?_,
    moves.run.trans running, writeReg_readReg_same _ _ _, ?_⟩
  · rw [writeReg_readReg_ne _ _ (by decide), writeReg_readReg_ne _ _ (by decide), writeReg_readReg_ne _ _ (by decide),
      writeMem_readReg, writeReg_readReg_ne _ _ (by decide)]
  · rw [writeReg_readReg_ne _ _ (by decide), writeReg_readReg_ne _ _ (by decide), writeReg_readReg_ne _ _ (by decide),
      writeMem_readReg, writeReg_readReg_same]
  · rw [writeReg_readMem, writeReg_readMem, writeReg_readMem, writeMem_readMem_same]
  · rw [writeReg_readReg_ne _ _ (by decide), writeReg_readReg_same]

/-- Settles O14: a push raises TSP, a pop lowers a TSP that was not below SPR, and nothing else that the five do reaches
either register. -/
theorem stackInstructionsKeepTheStackInvariant : Obligations.StackInstructionsKeepTheStackInvariant := by
  intro f1 f2 i s t mem admissible stackOk noPointer runs
  have afterField {k : Loc → State → Res Unit} (notRet : i ≠ .ret f1 f2)
      (h : finish ((resolve f1 s).andThen k) = .next t)
      (next : ∀ l1 s1, resolve f1 s = .ok l1 s1 → s1.StackOk → s1.cfg.wf = true → finish (k l1 s1) = .next t → t.StackOk) :
      t.StackOk := by
    obtain ⟨-, rfl⟩ | ⟨l1, s1, resolves, h⟩ := finish_resolve h
    · exact stackOk
    have moves : Moves [] [f1] s s1 := .resolve (List.mem_singleton_self f1) resolves
    refine next l1 s1 resolves (stackOk.moves moves fun r hr => ⟨List.not_mem_nil, fun f hf => ?_⟩)
      (moves.cfg ▸ admissible) h
    obtain ⟨noAuto, -⟩ := noPointer r hr
    exact List.mem_singleton.mp hf ▸ noAuto notRet
  have notPointer {l1 : Loc} {s1 : State} (resolves : resolve f1 s = .ok l1 s1) (writes : i ∈ [.pop f1 f2, .top f1 f2]) :
      ∀ r ∈ [Reg.SPR, Reg.TSP], Loc.reg r ≠ l1 := by
    rintro r hr rfl
    obtain ⟨-, noReg⟩ := noPointer r hr
    exact noReg writes (eq_reg_of_resolve resolves)
  simp only [List.mem_cons, List.not_mem_nil, or_false] at mem
  obtain rfl | rfl | rfl | rfl | rfl := mem
  · refine afterField nofun runs fun l1 s1 _ stackOk1 admissible1 h => ?_
    obtain ⟨f, -, rfl⟩ | ⟨-, cell, h⟩ := finish_stackPush h
    · exact stackOk1
    · exact (stackOk1.pushTSP admissible1 cell).finish_write (by simp) h
  · refine afterField nofun runs fun l1 s1 resolves stackOk1 _ h => ?_
    obtain ⟨f, -, rfl⟩ | ⟨nonempty, cell, h⟩ := finish_stackPop h
    · exact stackOk1
    · exact (stackOk_popTSP nonempty cell).finish_write (notPointer resolves (by simp)) h
  · refine afterField nofun runs fun l1 s1 resolves stackOk1 _ h => ?_
    obtain ⟨f, -, rfl⟩ | ⟨-, -, h⟩ := finish_stackTop h
    · exact stackOk1
    · exact stackOk1.finish_write (notPointer resolves (by simp)) h
  · refine afterField nofun runs fun l1 s1 _ stackOk1 admissible1 h => ?_
    obtain ⟨f, -, rfl⟩ | ⟨-, cell, h⟩ := finish_stackPush h
    · exact stackOk1
    · cases h
      exact (stackOk1.pushTSP admissible1 cell).of_regs (writeReg_readReg_ne _ _ (by decide))
        (writeReg_readReg_ne _ _ (by decide))
  · obtain ⟨f, -, rfl⟩ | ⟨nonempty, cell, h⟩ := finish_stackPop runs
    · exact stackOk
    · cases h
      exact (stackOk_popTSP nonempty cell).of_regs (writeReg_readReg_ne _ _ (by decide))
        (writeReg_readReg_ne _ _ (by decide))

/-- Settles O13: the pushes succeed (`pushAll_of_room`) and the pops undo them (`popAll_of_pushAll`); from reset TSP is 191
and STACK_LIMIT 255. -/
theorem lastInFirstOut : Obligations.LastInFirstOut := by
  refine ⟨fun vs s admissible bottom stackOk room => ?_, fun vs full => ?_⟩
  · obtain ⟨t, pushes, -⟩ := pushAll_of_room admissible bottom room
    obtain ⟨u, pops, same⟩ := popAll_of_pushAll admissible stackOk pushes
    exact ⟨t, u, pushes, pops, same.regs, fun empty => stackPop_of_lt (by rwa [same.regs, same.regs])⟩
  · have tsp : (State.reset.readReg Reg.TSP).signed = 191 := by decide
    have limit : State.reset.cfg.stackLimit = 255 := rfl
    obtain ⟨t, pushes, cfg, top⟩ := pushAll_of_room (s := State.reset) (vs := vs) (by decide) (by omega) (by omega)
    exact ⟨t, pushes, stackPush_of_gt (by rw [cfg, limit, top, tsp, full]; decide)⟩

end

section
/-! PROOFS. The jumps (44_control_transfer.md R191 to R198) and SCAN with its wait (43_write_only.md R175,
41_execution_engine.md R151). -/

open Sys2Proof Sys2Proof.Machine Sys2Proof.Statements

namespace Sys2Proof.Machine

/-! ### The jumps -/

theorem exec_jmp (f1 f2 : Operand) (s : State) :
    exec (.jmp f1 f2) s = finish ((resolve f1 s).andThen fun l1 s => .ok () (s.writeReg Reg.PC (target l1 s))) := rfl

theorem exec_jmp_resolved {f1 f2 : Operand} {s s1 : State} {l1 : Loc} (resolves : resolve f1 s = .ok l1 s1) :
    exec (.jmp f1 f2) s = .next (s1.writeReg Reg.PC (target l1 s1)) := by
  rw [exec_jmp, resolves, Res.andThen_ok, finish_ok]

/-- An instruction that is a conditional jump with a test for the condition follows the rule. -/
theorem condJumpRule_of_exec {jcc : Operand → Operand → Instr} {cond : Int → Prop} {test : Int → Bool}
    (runs : ∀ f1 f2 s, exec (jcc f1 f2) s = condJump test f1 f2 s) (tests : ∀ v, test v = true ↔ cond v) :
    CondJumpRule jcc cond := by
  intro f1 f2 s
  obtain ⟨fault1, fault2⟩ : FieldFaults (jcc f1 f2) f1 f2 s := fieldFaults_of_exec (runs f1 f2 s)
  refine ⟨fault1, fun l1 s1 resolves1 => ⟨fault2 l1 s1 resolves1, fun l2 s2 resolves2 => ⟨fun taken => ?_, fun falls => ?_⟩⟩⟩
  · rw [runs, condJump_resolved resolves1 resolves2, if_pos ((tests _).mpr taken)]
  · rw [runs, condJump_resolved resolves1 resolves2, if_neg (mt (tests _).mp falls)]

/-- Each of the six is the common form with some test. -/
theorem exists_condJump {jcc : Operand → Operand → Instr} (mem : jcc ∈ [Instr.jeq, .jne, .jlt, .jle, .jgt, .jge]) :
    ∃ test, ∀ f1 f2 s, exec (jcc f1 f2) s = condJump test f1 f2 s := by
  simp only [List.mem_cons, List.not_mem_nil, or_false] at mem
  obtain rfl | rfl | rfl | rfl | rfl | rfl := mem
  exacts [⟨condEq, fun _ _ _ => rfl⟩, ⟨condNe, fun _ _ _ => rfl⟩, ⟨condLt, fun _ _ _ => rfl⟩,
    ⟨condLe, fun _ _ _ => rfl⟩, ⟨condGt, fun _ _ _ => rfl⟩, ⟨condGe, fun _ _ _ => rfl⟩]

/-- The absent field is register 0, which every admissible configuration has (30_encoding.md R81). -/
theorem resolve_absent {s : State} (admissible : s.cfg.wf = true) :
    resolve Operand.absent s = .ok (.reg Reg.PC) s := by
  rw [Operand.absent, resolve_reg, checkReg_of_lt (lt_nreg_of_lt admissible (by decide)), Res.andThen_ok]

theorem writeReg_self_readReg (s : State) (a r : Nat) : (s.writeReg a (s.readReg a)).readReg r = s.readReg r := by
  rw [writeReg_readReg]
  split
  case isTrue e => rw [e]
  case isFalse => rfl

/-! ### SCAN -/

theorem tookInput_of_no_wait {s : State} (noWait : s.scanWait = none) (rest : List Word) :
    s.tookInput rest = { s with input := rest } := by
  rw [State.tookInput, ← noWait]

/-- A waiting core goes on in its SCAN, with no new FETCH. -/
theorem step_of_waiting {s : State} {l : Loc} (admissible : s.cfg.wf = true) (running : s.run = .running)
    (waits : s.scanWait = some l) : step s = finish (scanInto l s) := by
  simp only [step, admissible, running, waits, if_true]

end Sys2Proof.Machine

/-- Settles O23: the six are one form with six tests. -/
theorem conditionalJumps : Obligations.ConditionalJumps :=
  ⟨condJumpRule_of_exec (test := condEq) (fun _ _ _ => rfl) fun _ => decide_eq_true_iff,
    condJumpRule_of_exec (test := condNe) (fun _ _ _ => rfl) fun _ => decide_eq_true_iff,
    condJumpRule_of_exec (test := condLt) (fun _ _ _ => rfl) fun _ => decide_eq_true_iff,
    condJumpRule_of_exec (test := condLe) (fun _ _ _ => rfl) fun _ => decide_eq_true_iff,
    condJumpRule_of_exec (test := condGt) (fun _ _ _ => rfl) fun _ => decide_eq_true_iff,
    condJumpRule_of_exec (test := condGe) (fun _ _ _ => rfl) fun _ => decide_eq_true_iff⟩

/-- Settles O24: the target of each kind of location. -/
theorem jmpGoesToItsTarget : Obligations.JmpGoesToItsTarget := by
  refine fun f1 f2 s => ⟨fun fails => ?_, fun l1 s1 resolves => ⟨?_, ?_, ?_⟩⟩
  · rw [exec_jmp, fails, Res.andThen_raised, finish_raised]
  · rintro a rfl
    rw [exec_jmp_resolved resolves, target_reg]
  · rintro a rfl
    rw [exec_jmp_resolved resolves, target_mem, wrap, BitVec.ofInt_natCast]
  · rintro v rfl
    rw [exec_jmp_resolved resolves, target_imm]

/-- Settles O28: the absent field names register 0, the PC itself, so a taken jump writes PC its own value. -/
theorem rewrittenJumpFallsThrough : Obligations.RewrittenJumpFallsThrough := by
  intro jcc mem f1 s s1 l1 admissible resolves1
  have moves : Moves [] [f1] s s1 := .resolve (List.mem_singleton_self f1) resolves1
  obtain ⟨test, runs⟩ := exists_condJump mem
  refine ⟨_, (runs _ _ _).trans (condJump_resolved resolves1 (resolve_absent (moves.cfg ▸ admissible))), ?_⟩
  split
  · exact ⟨writeReg_self_readReg s1 Reg.PC, fun _ => rfl, .rfl⟩
  · exact ⟨fun _ => rfl, fun _ => rfl, .rfl⟩

/-- Settles O21: the value is taken before the one write that is left. -/
theorem scanTakesOneInputValue : Obligations.ScanTakesOneInputValue := by
  refine ⟨hasMatch_of_opcode (o := .SCAN) fun _ _ => rfl, fun f1 f2 s noWait => ⟨fun fails => ?_,
    fun l1 s1 resolves v rest offered => writesResult_of_exec ?_⟩⟩
  · rw [exec_scan, fails, Res.andThen_raised, finish_raised]
  · have moves : Moves [] [f1] s s1 := .resolve (List.mem_singleton_self f1) resolves
    rw [exec_scan_resolved resolves, scanInto_of_cons (moves.input.trans offered),
      tookInput_of_no_wait (moves.scanWait.trans noWait)]

/-- Settles O22: the step that runs SCAN ends in the wait; a step of the wait is SCAN's use of its location again, which with
IN empty sets the wait it is in, and with a value there clears it and writes. -/
theorem scanWaitsAndResumes : Obligations.ScanWaitsAndResumes := by
  intro f1 f2 s l s1 ready empty decodes resolves
  obtain ⟨admissible, running, noWait, -⟩ := id ready
  have moves : Moves [] [f1] (s.fetched (pcCell s)) s1 := .resolve (List.mem_singleton_self f1) resolves
  have admissible1 : s1.cfg.wf = true := moves.cfg ▸ admissible
  have running1 : s1.run = .running := moves.run.trans running
  have empty1 : s1.input = [] := moves.input.trans empty
  have noWait1 : s1.scanWait = none := moves.scanWait.trans noWait
  refine ⟨?_, ?_, fun v => ⟨{ s1 with scanWait := some l, input := [v] }, ?_, ?_⟩⟩
  · rw [step_of_ready_of_decode ready decodes, exec_scan_resolved resolves, scanInto_of_nil empty1, finish_ok,
      State.awaitInput]
  · show step (s1.awaitInput l) = .next (s1.awaitInput l)
    rw [step_of_waiting (s := s1.awaitInput l) admissible1 running1 rfl, scanInto_of_nil (s := s1.awaitInput l) empty1,
      finish_ok, State.awaitInput, State.awaitInput]
  · rw [hostAct, if_pos running1, empty1, List.nil_append]
  · rw [step_of_waiting (s := { s1 with scanWait := some l, input := [v] }) admissible1 running1 rfl,
      scanInto_of_cons (v := v) (rest := []) rfl, State.tookInput, ← empty1, ← noWait1]

end

section
/-! PROOFS. The laws of the arithmetic (45_arithmetic.md): wrapped results and the sign (R211), and truncating division
(R212, R216). -/

open Sys2Proof Sys2Proof.Machine Sys2Proof.Statements

namespace Sys2Proof

theorem tmod_nonpos {p : Int} (q : Int) (h : p ≤ 0) : p.tmod q ≤ 0 := by
  have negated := Int.tmod_nonneg q (Int.neg_nonneg_of_nonpos h)
  rw [Int.neg_tmod] at negated
  exact Int.nonpos_of_neg_nonneg negated

/-- What truncating division by `q` gives for two signed words, other than −2^31 by −1: nothing to wrap, and the laws. -/
theorem signed_tdiv_tmod {p q : Int} (pLow : -2147483648 ≤ p) (pHigh : p < 2147483648) (qLow : -2147483648 ≤ q)
    (qHigh : q < 2147483648) (nonzero : q ≠ 0) (noOverflow : ¬ (p = -2147483648 ∧ q = -1)) :
    (wrap (p.tdiv q)).signed = p.tdiv q ∧ (wrap (p.tmod q)).signed = p.tmod q ∧ (p.tmod q).natAbs < q.natAbs := by
  have law := Int.mul_tdiv_add_tmod p q
  have remainder : (p.tmod q).natAbs < q.natAbs := by
    rw [Int.natAbs_tmod]
    exact Nat.mod_lt _ (Int.natAbs_pos.mpr nonzero)
  have quotient : (p.tdiv q).natAbs ≤ p.natAbs := Int.natAbs_tdiv_le_natAbs p q
  have fits : p.tdiv q ≠ 2147483648 := fun e => by
    rw [e] at law
    omega
  exact ⟨signed_wrap (by omega) (by omega), signed_wrap (by omega) (by omega), remainder⟩

end Sys2Proof

namespace Sys2Proof.Machine

section
variable {a b : Nat} {s : State}

theorem resolve_reg_of_lt (h : a < s.cfg.nreg) : resolve (.reg a) s = .ok (.reg a) s := by
  rw [resolve_reg, checkReg_of_lt h, Res.andThen_ok]

/-- An arithmetic instruction with register operands whose operation has a result. -/
theorem arith_reg_reg {op : ArithOp} {r : Int} (ha : a < s.cfg.nreg) (hb : b < s.cfg.nreg)
    (computes : op (s.readReg a).signed (s.readReg b).signed = .ok r) :
    arith op (.reg a) (.reg b) s = .next (s.writeReg a (wrap r)) := by
  rw [arith_of_ok (resolve_reg_of_lt ha) (resolve_reg_of_lt hb) computes, write_reg, finish_ok]

end

end Sys2Proof.Machine

/-- Settles O31: wrapping goes through sum, difference and product, and wrapping either reading of a pattern gives it
back. -/
theorem wrappedResultsIgnoreTheSign : Obligations.WrappedResultsIgnoreTheSign := by
  refine fun p q => ⟨?_, ?_, ?_, ?_, ?_, ?_⟩
  all_goals simp only [wrap_add, wrap_sub, wrap_mul, wrap_signed, wrap_unsigned]

/-- Settles O32: both leave the wrapped result in the register, and but for the one overflowing pair wrapping changes nothing
(`signed_tdiv_tmod`). -/
theorem truncatingDivisionLaws : Obligations.TruncatingDivisionLaws := by
  intro a b s ha hb nonzero
  have nonzero' : (s.readReg b).signed ≠ 0 := mt (Word.signed_eq_zero_iff _).mp nonzero
  refine ⟨_, _, arith_reg_reg ha hb (opDiv_of_ne_zero _ nonzero'), arith_reg_reg ha hb (opMod_of_ne_zero _ nonzero'), ?_⟩
  rw [writeReg_readReg_same, writeReg_readReg_same, ← Int.tmod_def]
  generalize s.readReg a = x, s.readReg b = y at nonzero'
  refine ⟨fun ⟨hx, hy⟩ => by subst hx hy; decide, fun noOverflow => ?_⟩
  obtain ⟨xLow, xHigh⟩ := signed_bounds x
  obtain ⟨yLow, yHigh⟩ := signed_bounds y
  obtain ⟨div, mod, lt⟩ := signed_tdiv_tmod xLow xHigh yLow yHigh nonzero' fun ⟨hx, hy⟩ =>
    noOverflow ⟨BitVec.eq_of_toInt_eq hx, BitVec.eq_of_toInt_eq hy⟩
  rw [div, mod]
  exact ⟨Int.mul_tdiv_add_tmod _ _, lt, Int.tmod_nonneg _, tmod_nonpos _⟩

end

section
/-! PROOFS. The step (41_execution_engine.md R140 to R149): what it runs, what it leaves to RUN and the channels, and that it
always answers. -/

open Sys2Proof Sys2Proof.Machine Sys2Proof.Statements

namespace Sys2Proof

theorem Instr.exists_eq_of_opcode {i : Instr} {o : Opcode} (h : i.opcode = o) : ∃ f1 f2, i = o.instr f1 f2 :=
  ⟨i.f1, i.f2, by rw [← h, i.instr_opcode]⟩

end Sys2Proof

namespace Sys2Proof.Machine

/-! ### Faults as numbers -/

theorem fltCode_of_none {s : State} (h : s.flt = none) : s.fltCode = 0 := by
  rw [State.fltCode, h]

theorem code_ne_zero (f : FaultKind) : f.code ≠ 0 := by
  cases f <;> decide

theorem fltCode_ne_zero_iff (s : State) : s.fltCode ≠ 0 ↔ s.flt.isSome = true := by
  cases h : s.flt with
  | none => simp [fltCode_of_none h]
  | some f => simp [fltCode_of_flt h, code_ne_zero f]

/-! ### Every meaning answers -/

theorem exec_next (i : Instr) (s : State) : ∃ t, exec i s = .next t := by
  cases i
  case eop f1 f2 => exact ⟨s.halt, exec_eop f1 f2 s⟩
  all_goals exact finish_next _

theorem decodeAndRun_next (s : State) : ∃ t, decodeAndRun s = .next t := by
  unfold decodeAndRun
  cases decode s.w with
  | ok i => exact exec_next i s
  | error e => exact finish_next _

theorem fetchAndRun_next (s : State) : ∃ t, fetchAndRun s = .next t := by
  unfold fetchAndRun
  cases fetch s with
  | ok u t => exact decodeAndRun_next t
  | raised f t => exact finish_next _

theorem step_of_not_running {s : State} (admissible : s.cfg.wf = true) (stopped : s.run ≠ .running) :
    step s = .next s := by
  unfold step
  rw [if_pos admissible]
  cases h : s.run with
  | running => exact absurd h stopped
  | idle | halted | faulted => rfl

theorem step_of_no_wait {s : State} (admissible : s.cfg.wf = true) (running : s.run = .running)
    (noWait : s.scanWait = none) : step s = fetchAndRun s := by
  simp only [step, admissible, running, noWait, if_true]

theorem step_next {s : State} (admissible : s.cfg.wf = true) : ∃ t, step s = .next t := by
  by_cases running : s.run = .running
  · cases wait : s.scanWait with
    | none => exact step_of_no_wait admissible running wait ▸ fetchAndRun_next s
    | some l => exact step_of_waiting admissible running wait ▸ finish_next _
  · exact ⟨s, step_of_not_running admissible running⟩

/-! ### What a step can do -/

/-- What SCAN, or the rest of a waiting one, leaves of the configuration, RUN and the channels. -/
theorem finish_scanInto_others {l : Loc} {s t : State} (h : finish (scanInto l s) = .next t) :
    t.cfg = s.cfg ∧ t.out = s.out ∧ (t.run = s.run ∨ t.run = .faulted) ∧
    (t.input = s.input ∨ ∃ v, s.input = v :: t.input) := by
  obtain ⟨-, rfl⟩ | ⟨v, rest, offered, ends⟩ := finish_scanInto h
  · exact ⟨rfl, rfl, .inl rfl, .inl rfl⟩
  · obtain ⟨cfg, -, out, rfl, -, ⟨run, -⟩ | ⟨run, -⟩⟩ := finish_write_tookInput ends
    · exact ⟨cfg, out, .inl run, .inr ⟨v, offered⟩⟩
    · exact ⟨cfg, out, .inr run, .inr ⟨v, offered⟩⟩

theorem cfg_of_exec {i : Instr} {s t : State} (runs : exec i s = .next t) : t.cfg = s.cfg := by
  by_cases isEop : i.opcode = .EOP
  · obtain ⟨f1, f2, rfl⟩ := Instr.exists_eq_of_opcode isEop
    cases runs
    rfl
  · obtain ⟨cfg, -⟩ := sameStatus_of_exec runs isEop
    exact cfg

theorem out_grows_of_exec {i : Instr} {s t : State} (runs : exec i s = .next t) :
    t.out = s.out ∨ ∃ v f1 f2, t.out = s.out ++ [v] ∧ i = .prnt f1 f2 := by
  by_cases isPrnt : i.opcode = .PRNT
  · obtain ⟨f1, f2, rfl⟩ := Instr.exists_eq_of_opcode isPrnt
    obtain ⟨-, rfl⟩ | ⟨l, s1, resolves, h⟩ := finish_resolve runs
    · exact .inl rfl
    · have moves : Moves [] [f1] s s1 := .resolve (List.mem_singleton_self f1) resolves
      cases h
      exact .inr ⟨value l s1, f1, f2, by rw [emit_out, moves.out], rfl⟩
  · exact .inl (out_of_exec runs isPrnt)

theorem input_drains_of_exec {i : Instr} {s t : State} (runs : exec i s = .next t) :
    t.input = s.input ∨ ∃ v, s.input = v :: t.input := by
  by_cases isScan : i.opcode = .SCAN
  · obtain ⟨f1, f2, rfl⟩ := Instr.exists_eq_of_opcode isScan
    obtain ⟨-, rfl⟩ | ⟨l, s1, resolves, h⟩ := finish_resolve runs
    · exact .inl rfl
    · have moves : Moves [] [f1] s s1 := .resolve (List.mem_singleton_self f1) resolves
      obtain ⟨-, -, -, input⟩ := finish_scanInto_others h
      exact moves.input ▸ input
  · obtain ⟨input, -⟩ := input_of_exec runs isScan
    exact .inl input

/-- All that a step of a running core can do: go on with a waiting SCAN, take a fault before any instruction, or run the
instruction at PC. -/
theorem step_running_cases {s t : State} (running : s.run = .running) (steps : step s = .next t) :
    (∃ l, s.scanWait = some l ∧ finish (scanInto l s) = .next t) ∨
    (s.scanWait = none ∧ ¬ InMem s.cfg (s.readReg Reg.PC).signed ∧ t = takeFault .invalidAddress s) ∨
    (Ready s ∧ ∃ e, decode (wordAtPC s) = .error e ∧ t = takeFault .unknownOpcode (s.fetched (pcCell s))) ∨
    (Ready s ∧ ∃ i, decode (wordAtPC s) = .ok i ∧ exec i (s.fetched (pcCell s)) = .next t) := by
  obtain ⟨admissible, ⟨stopped, -⟩ | ⟨-, l, waits, ends⟩ | ⟨-, noWait, noCell, rfl⟩ | ⟨-, noWait, cell, runs⟩⟩ :=
    step_cases steps
  · exact absurd running stopped
  · exact .inl ⟨l, waits, ends⟩
  · exact .inr (.inl ⟨noWait, noCell, rfl⟩)
  · have ready : Ready s := ⟨admissible, running, noWait, cell⟩
    obtain ⟨i, decodes, runs⟩ | ⟨e, rejects, rfl⟩ := decodeAndRun_cases runs
    · exact .inr (.inr (.inr ⟨ready, i, decodes, runs⟩))
    · exact .inr (.inr (.inl ⟨ready, e, rejects, rfl⟩))

theorem cfg_of_step {s t : State} (steps : step s = .next t) : t.cfg = s.cfg := by
  by_cases running : s.run = .running
  · obtain ⟨l, -, ends⟩ | ⟨-, -, rfl⟩ | ⟨-, -, -, rfl⟩ | ⟨-, i, -, runs⟩ := step_running_cases running steps
    · obtain ⟨cfg, -⟩ := finish_scanInto_others ends
      exact cfg
    · rfl
    · rfl
    · have cfg := cfg_of_exec runs
      exact cfg
  · rw [eq_of_step_of_not_running steps running]

/-- RUN after a step of a running core. -/
theorem run_of_step {s t : State} (running : s.run = .running) (steps : step s = .next t) :
    t.run = .running ∨ t.run = .faulted ∨
    (t.run = .halted ∧ Ready s ∧ ∃ f1 f2, decode (wordAtPC s) = .ok (.eop f1 f2)) := by
  obtain ⟨l, -, ends⟩ | ⟨-, -, rfl⟩ | ⟨-, -, -, rfl⟩ | ⟨ready, i, decodes, runs⟩ := step_running_cases running steps
  · obtain ⟨-, -, run | run, -⟩ := finish_scanInto_others ends
    · exact .inl (run.trans running)
    · exact .inr (.inl run)
  · exact .inr (.inl rfl)
  · exact .inr (.inl rfl)
  · obtain run | ⟨run, -⟩ | ⟨run, isEop⟩ := run_of_exec runs
    · exact .inl (run.trans running)
    · exact .inr (.inl run)
    · obtain ⟨f1, f2, rfl⟩ := Instr.exists_eq_of_opcode isEop
      exact .inr (.inr ⟨run, ready, f1, f2, decodes⟩)

theorem decodeTableWord_eq_some_iff (nbits w : Nat) (i : Instr) :
    decodeTableWord nbits w = some i ↔ decode (BitVec.ofNat 32 (w % 2 ^ nbits)) = .ok i := by
  unfold decodeTableWord
  cases decode (BitVec.ofNat 32 (w % 2 ^ nbits)) <;> simp [Except.toOption]

theorem withFetchWord_of_inMem {s : State} (nbits w : Nat) (cell : InMem s.cfg (s.readReg Reg.PC).signed) :
    s.withFetchWord nbits w = (s.writeMem (pcCell s) (BitVec.ofNat 32 (w % 2 ^ nbits))).started := by
  rw [State.withFetchWord, State.placeAtPC, checkMem_of_inMem cell, pcCell]

end Sys2Proof.Machine

/-- Settles O40: the codes by definition; FLT is a fault's number or 0. -/
theorem faultCodesAndTheNumberInFlt : Obligations.FaultCodesAndTheNumberInFlt :=
  ⟨rfl, rfl, rfl, rfl, rfl, rfl, fun s => ⟨fltCode_of_none, fun _ => fltCode_of_flt, fltCode_ne_zero_iff s⟩⟩

/-- Settles O43: the step is exec of what decodes, and FETCH writes IR, PC and W alone. -/
theorem stepRunsTheDecodedInstruction : Obligations.StepRunsTheDecodedInstruction := by
  refine fun s i ready decodes => ⟨step_of_ready_of_decode ready decodes, fetched_pcCell_readReg_IR ready,
    fetched_pcCell_readReg_PC ready, fetched_pcCell_w s, fetched_mem s _, fun r outside _ => ?_, .rfl⟩
  rw [List.mem_cons, List.mem_singleton, not_or] at outside
  obtain ⟨notPC, notIR⟩ := outside
  rw [fetched_readReg, if_neg (Ne.symm notPC), if_neg (Ne.symm notIR)]

/-- Settles O44: FETCH's check fails before it writes. -/
theorem fetchOutsideMemoryFaults : Obligations.FetchOutsideMemoryFaults := by
  intro s admissible running noWait outside
  rw [step_of_no_wait admissible running noWait, fetchAndRun, fetch, checkMem_of_outside outside, Res.andThen_raised]
  rfl

/-- Settles O45: every part of the step ends in `finish`, which always answers a next state. -/
theorem everyStepHasANextState : Obligations.EveryStepHasANextState :=
  fun _ => ⟨step_next, fun inadmissible => if_neg (by simp [inadmissible])⟩

/-- Settles O46: in each of the three stopped run states the step is the same state. -/
theorem stoppedCoreStaysAsItIs : Obligations.StoppedCoreStaysAsItIs := fun _ => step_of_not_running

/-- Settles O51: along what a step can do to RUN (`run_of_step`) and what a host action can do; an EOP at PC halts. -/
theorem runStateTransitions : Obligations.RunStateTransitions := by
  refine ⟨fun s t running steps => ⟨fun idle => ?_, fun halted => ?_, fun ⟨ready, f1, f2, decodes⟩ => ?_⟩,
    fun s t a acts stopped => ?_, fun s t a acts idle running => ?_⟩
  · obtain run | run | ⟨run, -⟩ := run_of_step running steps <;> simp [idle] at run
  · obtain run | run | ⟨-, eop⟩ := run_of_step running steps
    · simp [halted] at run
    · simp [halted] at run
    · exact eop
  · rw [step_of_ready_of_decode ready decodes, exec_eop] at steps
    cases steps
    rfl
  · obtain ⟨supplied, rfl, rfl⟩ | ⟨_, _, _, -, idle, -⟩ | ⟨-, idle, -⟩ | ⟨_, -, running, -⟩ := hostAct_cases acts
    · exact ⟨supplied, rfl, rfl⟩
    · simp [idle] at stopped
    · simp [idle] at stopped
    · simp [running] at stopped
  · obtain ⟨_, -, rfl⟩ | ⟨sp, _, _, -, -, -, rfl⟩ | ⟨isStart, -⟩ | ⟨_, -, running, -⟩ := hostAct_cases acts
    · cases running
    · cases sp <;> simp [State.loadCell, idle] at running
    · exact isStart
    · simp [idle] at running

/-- Settles O52: only the instruction at PC or a waiting SCAN uses a channel. -/
theorem channelsOnlyGrowAndDrain : Obligations.ChannelsOnlyGrowAndDrain := by
  intro s t steps
  by_cases running : s.run = .running
  · obtain ⟨l, -, ends⟩ | ⟨-, -, rfl⟩ | ⟨-, -, -, rfl⟩ | ⟨-, i, decodes, runs⟩ := step_running_cases running steps
    · obtain ⟨-, out, -, input⟩ := finish_scanInto_others ends
      exact ⟨.inl out, input⟩
    · exact ⟨.inl rfl, .inl rfl⟩
    · exact ⟨.inl rfl, .inl rfl⟩
    · have input := input_drains_of_exec runs
      refine ⟨?_, input⟩
      obtain out | ⟨v, f1, f2, out, rfl⟩ := out_grows_of_exec runs
      · exact .inl out
      · exact .inr ⟨v, f1, f2, out, decodes⟩
  · rw [eq_of_step_of_not_running steps running]
    exact ⟨.inl rfl, .inl rfl⟩

/-- Settles O53: along what a step (`cfg_of_step`) and what a host action can do; reset keeps the configuration it is under. -/
theorem configurationNeverChanges : Obligations.ConfigurationNeverChanges := by
  refine ⟨fun s t => cfg_of_step, fun s t a acts => ?_⟩
  obtain ⟨_, -, rfl⟩ | ⟨sp, _, _, -, -, -, rfl⟩ | ⟨-, -, rfl⟩ | ⟨_, -, -, rfl⟩ := hostAct_cases acts
  · rfl
  · cases sp <;> rfl
  · rfl
  · rfl

/-- Settles O54: MOV's write leaves a core that is ready, and the cell PC names holds the word written. -/
theorem aStoreIsSeenByTheNextFetch : Obligations.AStoreIsSeenByTheNextFetch := by
  intro f1 f2 s s1 s2 t l1 a i admissible running noWait resolves1 resolves2 pc decodes moves
  have moves1 : Moves [] [f1, f2] s s1 := .resolve (by simp) resolves1
  have moves2 : Moves [] [f1, f2] s s2 := moves1.trans (.resolve (by simp) resolves2)
  have inside : a < s2.cfg.memSize := by
    rw [moves2.cfg, ← moves1.cfg]
    exact of_decide_eq_true (inRange_of_resolve resolves2)
  rw [exec_mov, resolves1, Res.andThen_ok, resolves2, Res.andThen_ok, write_mem, finish_ok] at moves
  cases moves
  have cell : pcCell (s2.writeMem a (value l1 s2)) = a := by rw [pcCell, writeMem_readReg, pc, Int.toNat_natCast]
  have ready : Ready (s2.writeMem a (value l1 s2)) :=
    ⟨moves2.cfg ▸ admissible, moves2.run.trans running, moves2.scanWait.trans noWait, by
      rw [writeMem_readReg, pc, writeMem_cfg]
      exact ⟨Int.natCast_nonneg a, Int.ofNat_lt.mpr inside⟩⟩
  rw [step_of_ready_of_decode ready (by rwa [wordAtPC, cell, writeMem_readMem_same]), cell]

/-- Settles O59: with the word placed the core is ready, and the cell PC names holds the word. -/
theorem placedWordIsTheNextInstruction : Obligations.PlacedWordIsTheNextInstruction := by
  intro s nbits w i admissible cell decodes
  rw [withFetchWord_of_inMem nbits w cell]
  refine step_of_ready_of_decode ⟨admissible, rfl, rfl, cell⟩ (.trans (congrArg decode ?_)
    ((decodeTableWord_eq_some_iff nbits w i).mp decodes))
  exact writeMem_readMem_same s (pcCell s) _

end

section
/-! PROOFS. The run loop (41_execution_engine.md R147), the values of reset (10_state.md R40) and the host's actions
(00_scope.md R16). -/

open Sys2Proof Sys2Proof.Machine Sys2Proof.Statements

namespace Sys2Proof.Machine

/-! ### The run loop -/

theorem halted_or_faulted_of_step {s t : State} (running : s.run = .running) (steps : step s = .next t)
    (stops : t.run ≠ .running) : t.run = .halted ∨ t.run = .faulted := by
  obtain run | run | ⟨run, -⟩ := run_of_step running steps
  · exact absurd run stops
  · exact .inr run
  · exact .inl run

theorem eq_of_runLoop_of_not_running {n : Nat} {s t : State} (stopped : s.run ≠ .running)
    (h : runLoop n s = .next (.ended t)) : t = s := by
  rw [runLoop_of_not_running stopped] at h
  cases h
  rfl

/-- A run that ends has a last step, from a state that less fuel reaches. -/
theorem last_step_of_runLoop_ended {n : Nat} {s t : State} (running : s.run = .running)
    (h : runLoop n s = .next (.ended t)) :
    ∃ k u, k < n ∧ runLoop k s = .next (.outOfFuel u) ∧ u.run = .running ∧ step u = .next t ∧
      (t.run = .halted ∨ t.run = .faulted) := by
  induction n generalizing s with
  | zero => simp [runLoop_zero running] at h
  | succ n ih =>
    obtain ⟨stopped, -⟩ | ⟨-, isZero, -⟩ | ⟨-, m, s', fuel, steps, h⟩ := runLoop_cases h
    · exact absurd running stopped
    · cases isZero
    · cases fuel
      by_cases running' : s'.run = .running
      · obtain ⟨k, u, lt, reaches, rest⟩ := ih running' h
        exact ⟨k + 1, u, Nat.succ_lt_succ lt, (runLoop_succ running steps k).trans reaches, rest⟩
      · cases eq_of_runLoop_of_not_running running' h
        exact ⟨0, s, Nat.succ_pos n, runLoop_zero running, running, steps,
          halted_or_faulted_of_step running steps running'⟩

theorem runLoop_add_of_ended (m n : Nat) (s t : State) (h : runLoop m s = .next (.ended t)) :
    runLoop (m + n) s = .next (.ended t) := by
  induction m generalizing s with
  | zero =>
    obtain ⟨stopped, e⟩ | ⟨-, -, e⟩ | ⟨-, _, _, fuel, -⟩ := runLoop_cases h
    · cases e
      exact runLoop_of_not_running stopped _
    · cases e
    · cases fuel
  | succ m ih =>
    obtain ⟨stopped, e⟩ | ⟨-, isZero, -⟩ | ⟨running, m', s', fuel, steps, h⟩ := runLoop_cases h
    · cases e
      exact runLoop_of_not_running stopped _
    · cases isZero
    · cases fuel
      rw [Nat.succ_add, runLoop_succ running steps, ih s' h]

theorem runLoop_add_of_outOfFuel (m n : Nat) (s t : State) (h : runLoop m s = .next (.outOfFuel t)) :
    runLoop (m + n) s = runLoop n t := by
  induction m generalizing s with
  | zero =>
    obtain ⟨-, e⟩ | ⟨-, -, e⟩ | ⟨-, _, _, fuel, -⟩ := runLoop_cases h
    · cases e
    · cases e
      rw [Nat.zero_add]
    · cases fuel
  | succ m ih =>
    obtain ⟨-, e⟩ | ⟨-, isZero, -⟩ | ⟨running, m', s', fuel, steps, h⟩ := runLoop_cases h
    · cases e
    · cases isZero
    · cases fuel
      rw [Nat.succ_add, runLoop_succ running steps, ih s' h]

/-- Steps that keep to running states with a property use up any fuel. -/
theorem runLoop_outOfFuel_of_keeps {P : State → Prop} (keeps : ∀ s, P s → s.run = .running ∧ ∃ t, step s = .next t ∧ P t)
    {s : State} (h : P s) (n : Nat) : ∃ t, runLoop n s = .next (.outOfFuel t) ∧ P t := by
  induction n generalizing s with
  | zero =>
    obtain ⟨running, -⟩ := keeps s h
    exact ⟨s, runLoop_zero running, h⟩
  | succ n ih =>
    obtain ⟨running, t, steps, h'⟩ := keeps s h
    rw [runLoop_succ running steps]
    exact ih h'

theorem State.Inv.fltCode_ne_zero_iff {s : State} (h : s.Inv) : s.fltCode ≠ 0 ↔ s.run = .faulted := by
  obtain ⟨-, -, -, agrees, -⟩ := (inv_iff s).mp h
  rw [Machine.fltCode_ne_zero_iff, agrees]

theorem State.Inv.fltCode_eq_zero {s : State} (h : s.Inv) (running : s.run = .running) : s.fltCode = 0 := by
  by_contra nonzero
  simp [h.fltCode_ne_zero_iff.mp nonzero] at running

/-! ### Reset -/

theorem resetWith_readReg (c : Config) (r : Nat) :
    (State.resetWith c).readReg r =
      if Reg.TSP = r then wrap ((c.stackBase : Int) - 1) else if Reg.SPR = r then wrap c.stackBase else 0#32 := by
  rw [State.readReg, State.resetWith, Storage.load_store, Storage.load_store, Storage.load_nil]

theorem resetWith_readReg_TSP (c : Config) :
    (State.resetWith c).readReg Reg.TSP = wrap ((c.stackBase : Int) - 1) := by
  rw [resetWith_readReg, if_pos rfl]

theorem resetWith_readReg_SPR (c : Config) : (State.resetWith c).readReg Reg.SPR = wrap c.stackBase := by
  rw [resetWith_readReg, if_neg (by decide), if_pos rfl]

end Sys2Proof.Machine

/-- Settles O55: along what the loop can do (`runLoop_cases`), by induction on the fuel. -/
theorem runLoopStepsWhileRunning : Obligations.RunLoopStepsWhileRunning := by
  refine ⟨fun n s stopped => runLoop_of_not_running stopped n, fun s => runLoop_zero,
    fun n s t running steps => runLoop_succ running steps n, fun n s t => last_step_of_runLoop_ended,
    runLoop_add_of_ended, runLoop_add_of_outOfFuel, fun P keeps s h =>
    ⟨runLoop_outOfFuel_of_keeps keeps h, fun t ⟨fuel, ends⟩ => ?_⟩⟩
  obtain ⟨u, goesOn, -⟩ := runLoop_outOfFuel_of_keeps keeps h fuel
  simp [ends] at goesOn

/-- Settles O56: by induction on the fuel, since a step has a next state (`step_next`) and keeps the invariant. -/
theorem runLoopKeepsTheInvariant : Obligations.RunLoopKeepsTheInvariant := by
  intro n
  induction n with
  | zero =>
    intro s inv
    by_cases running : s.run = .running
    · exact .inl ⟨s, runLoop_zero running, inv, running, inv.fltCode_eq_zero running⟩
    · exact .inr ⟨s, runLoop_of_not_running running 0, inv, running, inv.fltCode_ne_zero_iff.symm,
        fun h => absurd h running, fun _ => rfl⟩
  | succ n ih =>
    intro s inv
    by_cases running : s.run = .running
    · obtain ⟨s', steps⟩ := step_next inv.admissible
      rw [runLoop_succ running steps]
      obtain goesOn | ⟨t, ends, inv', stopped, faulted, halts, stays⟩ := ih s' (inv.step steps)
      · exact .inl goesOn
      · refine .inr ⟨t, ends, inv', stopped, faulted, fun _ => ?_, fun h => absurd running h⟩
        by_cases running' : s'.run = .running
        · exact halts running'
        · exact stays running' ▸ halted_or_faulted_of_step running steps running'
    · exact .inr ⟨s, runLoop_of_not_running running _, inv, running, inv.fltCode_ne_zero_iff.symm,
        fun h => absurd h running, fun _ => rfl⟩

/-- Settles O57: SPR and TSP are the two registers reset writes; below 2^31 neither value wraps, so TSP is one below SPR. -/
theorem resetValues : Obligations.ResetValues := by
  refine fun c => ⟨resetWith_readReg_SPR c, resetWith_readReg_TSP c, fun r notSPR notTSP => ?_, fun a => rfl, rfl, rfl, rfl,
    fun _ small => ?_⟩
  · rw [resetWith_readReg, if_neg (Ne.symm notTSP), if_neg (Ne.symm notSPR)]
  · have spr : ((State.resetWith c).readReg Reg.SPR).signed = c.stackBase := by
      rw [resetWith_readReg_SPR, signed_wrap (by omega) (by omega)]
    have tsp : ((State.resetWith c).readReg Reg.TSP).signed = (c.stackBase : Int) - 1 := by
      rw [resetWith_readReg_TSP, signed_wrap (by omega) (by omega)]
    refine ⟨?_, stackTop_of_lt ?_⟩
    · rw [State.StackOk, spr, tsp]
    · rw [spr, tsp]
      exact Int.sub_one_lt_of_le (Int.le_refl _)

/-- Settles O58: each action is its test and its effect. -/
theorem hostActionsAndWhenTheyAreAllowed : Obligations.HostActionsAndWhenTheyAreAllowed := fun _ =>
  ⟨fun _ => rfl, fun _ _ => ⟨fun allowed => if_pos allowed, fun refused => if_neg refused⟩,
    fun _ _ => ⟨fun allowed => if_pos allowed, fun refused => if_neg refused⟩,
    fun idle => if_pos idle, fun notIdle => if_neg notIdle,
    fun _ => ⟨fun running => if_pos running, fun stopped => if_neg stopped⟩,
    fun stopped => if_neg stopped, fun running => if_pos running⟩

end
